-- ==== Sys2Proof/Word.lean ====
section
/-! DEFINITION. The one data width of the CORE: every register, memory cell, literal and opcode is an
unsigned byte (R8 and R11 of 00_scope.md, R20 of 10_state.md, R40 of 20_memory.md). -/

namespace Sys2Proof

/-- An unsigned byte, 0..255; its arithmetic is modulo 256 (R8, R20). -/
abbrev Byte := BitVec 8

/-- A valid register index, 0..7 (R20, R21). -/
abbrev Reg := Fin 8

end Sys2Proof
end

