-- ==== Sys2Proof/Config.lean ====
section
/-! DEFINITION. The implementation parameters of R6 of 00_scope.md, and the one value the spec leaves free
(the non-zero exit codes of R194 of 60_exceptions.md, which the host's process reports). -/

namespace Sys2Proof

/-- `MEM_SIZE` of this hardware (R6, R40). Memory carries its own length, so that every size the spec allows
has a model (log entry 2). -/
def Config.memSize : Nat := 256

/-- The largest `MEM_SIZE` the spec allows: every address is held in a byte (R6, D9). -/
def Config.maxMemSize : Nat := 256

/-- `SP_INDEX`: the stack pointer is R7 (R6, R22). -/
def Config.spIndex : Reg := 7

/-- `SP_RESET`: what R7 holds after reset (R6, R37). -/
def Config.spReset : Byte := 0xF4

/-- DESIGN CHOICE (log entry 10): R194 says an exit code is "non-zero" and gives no value; this is what is left
open, applied to a number that names the failure. Nothing can be proved of its value. -/
opaque Config.freeExitCode : Nat → Nat

end Sys2Proof
end

