-- ==== Sys2Proof/Syntax.lean ====
section
/-! DEFINITION. The fourteen instructions (R2 of 00_scope.md, R66 of 30_encoding.md), one constructor per row of
the opcode table. An operand is held as the whole operand byte (R63): a register operand above 7 is not a
different encoding, it is an instruction that raises InvalidRegister (R71, R182; log entry 6). -/

namespace Sys2Proof

/-- An instruction with its operand bytes. `a` is operand A (the byte at pc+1) and `b` or `imm` operand B (the
byte at pc+2), as in R62. -/
inductive Instr where
  /-- `HLT` (Halt), R104. -/
  | hlt
  /-- `RET` (Return), R165. -/
  | ret
  /-- `PUSH Ra` (Push), R141. -/
  | push (a : Byte)
  /-- `POP Ra` (Pop), R142. -/
  | pop (a : Byte)
  /-- `PRN Ra` (Print-Register), R103. -/
  | prn (a : Byte)
  /-- `CALL Ra` (Call), R164. -/
  | call (a : Byte)
  /-- `JMP Ra` (Jump), R161. -/
  | jmp (a : Byte)
  /-- `JEQ Ra` (Jump-If-Equal), R162. -/
  | jeq (a : Byte)
  /-- `JNE Ra` (Jump-If-Not-Equal), R163. -/
  | jne (a : Byte)
  /-- `LDI Ra, imm8` (Load-Immediate), R101. -/
  | ldi (a imm : Byte)
  /-- `ADD Ra, Rb` (Add), R122. -/
  | add (a b : Byte)
  /-- `SUB Ra, Rb` (Subtract), R123. -/
  | sub (a b : Byte)
  /-- `MUL Ra, Rb` (Multiply), R124. -/
  | mul (a b : Byte)
  /-- `CMP Ra, Rb` (Compare), R127. -/
  | cmp (a b : Byte)
deriving DecidableEq, Repr

/-- `registerOperands` of R90: the operands that an instruction's rule defines as register indices, in the order
in which they are checked. -/
def Instr.registerOperands : Instr → List Byte
  | .hlt => []
  | .ret => []
  | .push a => [a]
  | .pop a => [a]
  | .prn a => [a]
  | .call a => [a]
  | .jmp a => [a]
  | .jeq a => [a]
  | .jne a => [a]
  | .ldi a _ => [a]
  | .add a b => [a, b]
  | .sub a b => [a, b]
  | .mul a b => [a, b]
  | .cmp a b => [a, b]

end Sys2Proof
end

