-- ==== Sys2Proof/WellFormed.lean ====
section
/-! DEFINITION. The check on an instruction's operands: every register operand names one of the eight registers
(R21 of 10_state.md, R63 of 30_encoding.md). -/

namespace Sys2Proof

/-- A register operand is valid when the whole byte lies in 0..7; it is never reduced modulo 8 (R21). -/
def validReg (v : Byte) : Bool := v.toNat < 8

/-- Every operand that the instruction defines as a register index is valid (R86). -/
def Instr.wellFormed (i : Instr) : Bool := i.registerOperands.all validReg

end Sys2Proof
end

