-- ==== Sys2Proof/Decode.lean ====
section
/-! DEFINITION. Encoding and decoding: the opcode byte's fields, the opcode map, the decoder, total on any list of
bytes and rejecting by name, and after it the encoder (30_encoding.md R60 to R72). -/

namespace Sys2Proof

/-! ## The opcode byte's fields -/

/-- `AA` = op[7:6], the number of operand bytes (R61). -/
def operandCount (op : Byte) : Nat := (op.extractLsb 7 6).toNat

/-- `B` = op[5], the ALU flag (R61); no rule depends on it (R83). -/
def aluFlag (op : Byte) : Bool := op.getLsbD 5

/-- op[5:0], the operation id, which includes bit 5 (R61). -/
def operationId (op : Byte) : BitVec 6 := op.extractLsb 5 0

/-- `C` = op[4], "sets-PC", informational: no rule reads it (R61). -/
def setsPcFlag (op : Byte) : Bool := op.getLsbD 4

/-! ## The opcode map -/

/-- The fourteen operations, the "explicit enumerated instruction type" of R65. -/
inductive Opcode where
  | hlt | ret | push | pop | prn | call | jmp | jeq | jne | ldi | add | sub | mul | cmp
deriving DecidableEq, Repr

/-- The formats of R62. -/
inductive Format where
  | f0 | f1 | f2r | f2i
deriving DecidableEq, Repr

/-- A row of the opcode map. -/
structure OpcodeRow where
  op : Opcode
  byte : Byte
  format : Format
deriving DecidableEq, Repr

/-- The opcode map of R66, row by row. The byte values are the spec's decision D1 (log entry 1). -/
def opcodeMap : List OpcodeRow :=
  [ ⟨.hlt, 0x01, .f0⟩,
    ⟨.ret, 0x11, .f0⟩,
    ⟨.push, 0x45, .f1⟩,
    ⟨.pop, 0x46, .f1⟩,
    ⟨.prn, 0x47, .f1⟩,
    ⟨.call, 0x50, .f1⟩,
    ⟨.jmp, 0x54, .f1⟩,
    ⟨.jeq, 0x55, .f1⟩,
    ⟨.jne, 0x56, .f1⟩,
    ⟨.ldi, 0x82, .f2i⟩,
    ⟨.add, 0xA0, .f2r⟩,
    ⟨.sub, 0xA1, .f2r⟩,
    ⟨.mul, 0xA2, .f2r⟩,
    ⟨.cmp, 0xA7, .f2r⟩ ]

/-- R65: the operation whose opcode value equals the WHOLE byte, or none (log entry 1, D3). -/
def decodeOpcode (op : Byte) : Option Opcode :=
  (opcodeMap.find? fun row => row.byte == op).map fun row => row.op

/-- R67: the other decoder the spec describes, which first checks op[7:6] against the row's count and then keys on
op[5:0]. The machine does not use it; R67 says that it accepts the same bytes. -/
def decodeOpcodeById (op : Byte) : Option Opcode :=
  (opcodeMap.find? fun row =>
    operandCount row.byte == operandCount op && operationId row.byte == operationId op).map fun row => row.op

/-- The instruction of an operation, from its operand bytes A and B (R62); a format's absent operands are ignored. -/
def Opcode.build (a b : Byte) : Opcode → Instr
  | .hlt => .hlt
  | .ret => .ret
  | .push => .push a
  | .pop => .pop a
  | .prn => .prn a
  | .call => .call a
  | .jmp => .jmp a
  | .jeq => .jeq a
  | .jne => .jne a
  | .ldi => .ldi a b
  | .add => .add a b
  | .sub => .sub a b
  | .mul => .mul a b
  | .cmp => .cmp a b

/-! ## The decoder -/

/-- Why bytes are not an instruction. -/
inductive DecodeError where
  /-- The byte at this offset from the opcode is needed and is not there (R82, R84). -/
  | truncated (offset : Nat)
  /-- No row of the opcode map has this byte (R65, R85). -/
  | unknownInstruction (op : Byte)
deriving DecidableEq, Repr

/-- Decode the opcode byte once its operand bytes have been read, and keep the bytes that follow. -/
def decodeWith (op a b : Byte) (rest : List Byte) : Except DecodeError (Instr × List Byte) :=
  match decodeOpcode op with
  | some o => .ok (o.build a b, rest)
  | none => .error (.unknownInstruction op)

/-- Read one instruction from the front of a list of bytes and answer it with the bytes after it. The operand bytes
that op[7:6] asks for are read before the byte is looked up, for every byte; for op[7:6] = 3 both are (R69, R72,
R84). -/
def decode : List Byte → Except DecodeError (Instr × List Byte)
  | [] => .error (.truncated 0)
  | op :: rest =>
    if operandCount op = 0 then decodeWith op 0 0 rest
    else match rest with
      | [] => .error (.truncated 1)
      | a :: rest =>
        if operandCount op = 1 then decodeWith op a 0 rest
        else match rest with
          | [] => .error (.truncated 2)
          | b :: rest => decodeWith op a b rest

/-! ## The encoder -/

/-- The words of an instruction: the opcode byte, then operand A, then operand B (R62, R66, R73). -/
def encode : Instr → List Byte
  | .hlt => [0x01]
  | .ret => [0x11]
  | .push a => [0x45, a]
  | .pop a => [0x46, a]
  | .prn a => [0x47, a]
  | .call a => [0x50, a]
  | .jmp a => [0x54, a]
  | .jeq a => [0x55, a]
  | .jne a => [0x56, a]
  | .ldi a imm => [0x82, a, imm]
  | .add a b => [0xA0, a, b]
  | .sub a b => [0xA1, a, b]
  | .mul a b => [0xA2, a, b]
  | .cmp a b => [0xA7, a, b]

/-- How many bytes an instruction has: 1, 2 or 3 (R60, R64). -/
def Instr.length (i : Instr) : Nat := (encode i).length

/-! ## The opcode table's numbering of bits -/

/-- The first three bytes of an instruction whose bits are the low `nbits` of `w`: bit 0 is the least significant
bit of the opcode byte, and every bit above `nbits` is 0 (log entry 9). -/
def tableBytes (nbits w : Nat) : List Byte :=
  let v := w % 2 ^ nbits
  [BitVec.ofNat 8 v, BitVec.ofNat 8 (v / 256), BitVec.ofNat 8 (v / 65536)]

/-- The instruction the decoder reads from a word of the opcode table. -/
def decodeTableWord (nbits w : Nat) : Option Instr :=
  match decode (tableBytes nbits w) with
  | .ok (i, _) => some i
  | .error _ => none

end Sys2Proof
end

