-- ==== Sys2Proof/Machine/State.lean ====
section
/-! DEFINITION. The state of the CORE, the tuple of R36 of 10_state.md as plain data, its reset value (R37), and the
reasons a step can stop. -/

namespace Sys2Proof.Machine

/-- The condition flags FL (R29): Less-than, Greater-than, Equal. -/
structure Flags where
  L : Bool
  G : Bool
  E : Bool
deriving DecidableEq, Repr

/-- Memory (R40): its length N, fixed for the run (R53), and its cells. A cell that is not listed reads as zero, the
value memory is filled with at startup (R37); the listed addresses rise strictly, lie below `size`, and hold no
zero, so that equal memories are equal data (`Memory.wf`; log entries 2 and 7). -/
structure Memory where
  size : Nat
  cells : List Host.Cell
deriving DecidableEq, Repr

/-- The three fatal errors the CORE raises (R32, R180). -/
inductive FaultKind where
  | unknownInstruction
  | invalidRegister
  | outOfBounds
deriving DecidableEq, Repr

/-- The fault record (R32): the kind, the address of the faulting opcode, and the opcode byte, operand byte or
address that is at fault. -/
structure FaultRecord where
  kind : FaultKind
  fpc : Nat
  info : Nat
deriving DecidableEq, Repr

/-- The run status (R31), with the fault record while FAULTED (R32, R36). -/
inductive RunStatus where
  | running
  | halted
  | faulted (r : FaultRecord)
deriving DecidableEq, Repr

/-- The whole state (R36). `regs[7]` is the stack pointer (R22). -/
structure State where
  regs : Vector Byte 8
  pc : Nat
  fl : Flags
  mem : Memory
  out : List Byte
  status : RunStatus
deriving DecidableEq, Repr

/-- Why there is no next state. The CORE's own fatal errors are NOT here: taking one is a step, to the state whose
status is FAULTED (R90, R184; log entry 4). -/
inductive Fault where
  /-- Raised by `step` alone, in HALTED: "the Machine takes no further step until reset" (R31, R80). The machine is
  stuck, as the spec says; exact, so neither safe nor unsafe of itself. -/
  | noStepWhenHalted
  /-- Raised by `step` alone, in FAULTED: the same rule, after a fatal error (R31, R80, R187). Exact. -/
  | noStepWhenFaulted
deriving DecidableEq, Repr

/-- Why an instruction has no meaning. -/
inductive Refusal where
  /-- Raised by an arm of `exec` whose instruction has no meaning yet; no arm of this model does. Safe. -/
  | notModelled (mnemonic : String)
deriving DecidableEq, Repr

/-- What a step or a meaning answers. -/
abbrev Result := Host.Outcome State Fault Refusal

/-- The state right after reset of a CORE with `n` memory cells (R37, R200). -/
def State.resetOfSize (n : Nat) : State :=
  { regs := #v[0, 0, 0, 0, 0, 0, 0, Config.spReset]
    pc := 0
    fl := ⟨false, false, false⟩
    mem := ⟨n, []⟩
    out := []
    status := .running }

/-- The state right after reset of this hardware, with N = 256 (R6, R37, R200): nothing is loaded. -/
def State.reset : State := State.resetOfSize Config.memSize

end Sys2Proof.Machine
end

