-- ==== Sys2Proof/Machine/Ops.lean ====
section
/-! DEFINITION. The named operations over memory, registers and the other fields, and taking a fault, the one shared
operation by which a cycle ends in FAULTED (R9, R42, R88, R184). There is no return from a fault: the CORE has no
trap mechanism and no return-from-trap (R186, R187). -/

namespace Sys2Proof.Machine

/-! ## Cells -/

/-- What the listed cells give at an address: 0 where nothing is listed (R37). -/
def cellsGet : List Host.Cell → Nat → Byte
  | [], _ => 0
  | (b, w) :: rest, a => if a = b then w else cellsGet rest a

/-- Put a cell at the front, unless it holds what an unlisted address reads as. -/
def cellsCons (a : Nat) (v : Byte) (rest : List Host.Cell) : List Host.Cell :=
  if v = 0 then rest else (a, v) :: rest

/-- Set the byte at an address, keeping the order of the addresses and listing no zero. -/
def cellsSet (a : Nat) (v : Byte) : List Host.Cell → List Host.Cell
  | [] => cellsCons a v []
  | (b, w) :: rest =>
    if a < b then cellsCons a v ((b, w) :: rest)
    else if a = b then cellsCons a v rest
    else (b, w) :: cellsSet a v rest

/-- The addresses of a list of cells rise strictly, all from `lo` on and below `hi`, and no cell holds zero. -/
def cellsWf (lo hi : Nat) : List Host.Cell → Bool
  | [] => true
  | (a, v) :: rest => decide (lo ≤ a) && decide (a < hi) && decide (v ≠ 0) && cellsWf (a + 1) hi rest

/-! ## Memory -/

/-- Memory is in its one canonical form, and its length is one the spec allows, 1 ≤ N ≤ 256 (R6, R40). -/
def Memory.wf (m : Memory) : Bool :=
  decide (1 ≤ m.size) && decide (m.size ≤ Config.maxMemSize) && cellsWf 0 m.size m.cells

/-- `read(address) -> byte` of the memory port: it fails outside [0, N) (R41, R42). -/
def Memory.read (m : Memory) (a : Nat) : Option Byte :=
  if a < m.size then some (cellsGet m.cells a) else none

/-- `write(address, byte) -> ()` of the memory port: it fails outside [0, N) (R41, R42). -/
def Memory.write (m : Memory) (a : Nat) (v : Byte) : Option Memory :=
  if a < m.size then some { m with cells := cellsSet a v m.cells } else none

/-- Write bytes at consecutive addresses, as far as the addresses exist. -/
def Memory.place (m : Memory) (a : Nat) : List Byte → Memory
  | [] => m
  | v :: rest => Memory.place ((m.write a v).getD m) (a + 1) rest

/-! ## Registers and the other fields -/

/-- `R[i]` as a value (R9). -/
def State.reg (s : State) (r : Reg) : Byte := s.regs[r]

/-- `R[i] <- v` (R9); no register is hardwired (R24). -/
def State.setReg (s : State) (r : Reg) (v : Byte) : State := { s with regs := s.regs.set r v }

/-- `SP`, a name for `R[7]` (R9, R22). -/
def State.sp (s : State) : Byte := s.reg Config.spIndex

/-- `SP <- v`, which is `R[7] <- v` (R22). -/
def State.setSp (s : State) (v : Byte) : State := s.setReg Config.spIndex v

/-- Replace FL, all three bits (R29). -/
def State.setFlags (s : State) (f : Flags) : State := { s with fl := f }

/-- Replace memory by what a write gave. -/
def State.setMem (s : State) (m : Memory) : State := { s with mem := m }

/-- `emit(v)`: append a byte to the output log (R9, R30). -/
def State.emit (s : State) (v : Byte) : State := { s with out := s.out ++ [v] }

/-- `halt()` (R9). -/
def State.halt (s : State) : State := { s with status := .halted }

/-- `pc <- t` (R9). -/
def State.setPc (s : State) (t : Nat) : State := { s with pc := t }

/-! ## The stack pointer's two moves -/

/-- The new SP of a push: SP - 1 modulo 256 (R23, R140). It is the address the push writes. -/
def State.pushedSp (s : State) : Byte := s.sp - 1

/-- The new SP of a pop, from the SP it has then: SP + 1 modulo 256 (R23, R140). -/
def State.poppedSp (s : State) : Byte := s.sp + 1

/-! ## The end of a cycle -/

/-- What a handler gives for the PC (R87). -/
inductive PcUpdate where
  | advance
  | jump (t : Byte)
deriving DecidableEq, Repr

/-- The PC after an instruction of `len` bytes at `pc`: the sequential advance is a sum of natural numbers and does
not wrap (R88, R89). -/
def PcUpdate.target (pc len : Nat) : PcUpdate → Nat
  | .advance => pc + len
  | .jump t => t.toNat

/-- End an instruction of `len` bytes: the PC is written once, after the handler's other writes (R88). -/
def finish (len : Nat) (u : PcUpdate) (s : State) : Result := .next (s.setPc (u.target s.pc len))

/-- `fault K(info)` of R90: the status becomes FAULTED with the record, and nothing else changes (R184). `s` is the
state from before the cycle, so its pc is the address of the faulting opcode. -/
def State.takeFault (s : State) (kind : FaultKind) (info : Nat) : State :=
  { s with status := .faulted { kind := kind, fpc := s.pc, info := info } }

/-- End the cycle in a fault (R9's `raise`). -/
def raise (kind : FaultKind) (info : Nat) (s : State) : Result := .next (s.takeFault kind info)

/-! ## Memory accesses that raise OutOfBounds -/

/-- `MemRead(a, 1)` (R9): go on with the byte, or raise OutOfBounds(a) (R42, R183). -/
def withRead (a : Nat) (s : State) (k : Byte → Result) : Result :=
  match s.mem.read a with
  | some v => k v
  | none => raise .outOfBounds a s

/-- `MemWrite(a, 1, v)` (R9): go on with the written memory, or raise OutOfBounds(a) in the state from before the
cycle, so that a faulting push has not moved SP (R42, R183, R184). -/
def withWrite (a : Nat) (v : Byte) (s : State) (k : Memory → Result) : Result :=
  match s.mem.write a v with
  | some m => k m
  | none => raise .outOfBounds a s

end Sys2Proof.Machine
end

