-- ==== Sys2Proof/Machine/Flags.lean ====
section
/-! DEFINITION. The one flag computation, Compare's, and the byte in which the host reads FL (R125, R127, R193). -/

namespace Sys2Proof.Machine

/-- FL after comparing `x` with `y` in the unsigned order (R125, R127). The reference implementation's
unreachable greater-than branch is not reproduced (R126). -/
def compareFlags (x y : Byte) : Flags :=
  { L := decide (x.toNat < y.toNat), G := decide (x.toNat > y.toNat), E := decide (x.toNat = y.toNat) }

/-- The flags are clear (R37). -/
def Flags.clear : Flags := ⟨false, false, false⟩

/-- At most one flag is set (R29). -/
def Flags.atMostOne (f : Flags) : Bool :=
  !(f.L && f.G) && !(f.L && f.E) && !(f.G && f.E)

/-- Exactly one flag is set, as after every Compare (R125, R127). -/
def Flags.exactlyOne (f : Flags) : Bool := f.atMostOne && (f.L || f.G || f.E)

/-- FL as the host reads it on the status port: `0b00000LGE` (R193). -/
def Flags.toByte (f : Flags) : Byte :=
  BitVec.ofNat 8 (4 * f.L.toNat + 2 * f.G.toNat + f.E.toNat)

end Sys2Proof.Machine
end

