-- ==== Sys2Proof/Machine/Operands.lean ====
section
/-! DEFINITION. Operands and the results of register arithmetic (R63, R86, R120). The only operand forms are the
register index and LDI's literal, and the literal is the byte itself. -/

namespace Sys2Proof.Machine

/-- The operand byte that names a register: its index (R63, R73). -/
def operandOf (r : Reg) : Byte := BitVec.ofNat 8 r.val

/-- The register an operand byte names: the whole byte, when it lies in 0..7 (R21, R63). -/
def regOf (v : Byte) : Option Reg :=
  if h : v.toNat < 8 then some ⟨v.toNat, h⟩ else none

/-- The check of one register operand (R86): go on with the register, or raise InvalidRegister(v) (R182). -/
def withReg (v : Byte) (s : State) (k : Reg → Result) : Result :=
  match regOf v with
  | some r => k r
  | none => raise .invalidRegister v.toNat s

/-- The check of two register operands, A first and then B (R86, R185). -/
def withRegs (a b : Byte) (s : State) (k : Reg → Reg → Result) : Result :=
  withReg a s fun ra => withReg b s fun rb => k ra rb

/-- `(x + y) mod 256` (R120, R122). -/
def aluAdd (x y : Byte) : Byte := x + y

/-- `(x - y) mod 256` (R120, R123). -/
def aluSub (x y : Byte) : Byte := x - y

/-- `(x * y) mod 256`: the low eight bits of the unsigned product (R120, R124). -/
def aluMul (x y : Byte) : Byte := x * y

end Sys2Proof.Machine
end

