-- ==== Sys2Proof/Machine/Alu.lean ====
section
/-! DEFINITION. The meanings of the ALU group: ADD, SUB, MUL, CMP (42_alu.md). -/

namespace Sys2Proof.Machine

/-- The shape ADD, SUB and MUL share: `R[A] <- f(R[A], R[B])`, both read before the write, FL unchanged. -/
def execArith (f : Byte → Byte → Byte) (a b : Byte) (s : State) : Result :=
  withRegs a b s fun ra rb => finish 3 .advance (s.setReg ra (f (s.reg ra) (s.reg rb)))

/-- ADD (R122). -/
def execAdd (a b : Byte) (s : State) : Result := execArith aluAdd a b s

/-- SUB (R123). -/
def execSub (a b : Byte) (s : State) : Result := execArith aluSub a b s

/-- MUL (R124). -/
def execMul (a b : Byte) (s : State) : Result := execArith aluMul a b s

/-- CMP (R127): all three flags are written, no register is. -/
def execCmp (a b : Byte) (s : State) : Result :=
  withRegs a b s fun ra rb => finish 3 .advance (s.setFlags (compareFlags (s.reg ra) (s.reg rb)))

end Sys2Proof.Machine
end

