-- ==== Sys2Proof/Machine/DataControl.lean ====
section
/-! DEFINITION. The meanings of the Data and Control groups: LDI, PRN, HLT (41_data_control.md). -/

namespace Sys2Proof.Machine

/-- LDI (R101): `R[A] <- B`, and B is never checked. -/
def execLdi (a imm : Byte) (s : State) : Result :=
  withReg a s fun ra => finish 3 .advance (s.setReg ra imm)

/-- PRN (R103): append R[A] to the output log. -/
def execPrn (a : Byte) (s : State) : Result :=
  withReg a s fun ra => finish 2 .advance (s.emit (s.reg ra))

/-- HLT (R104): the status becomes HALTED and the pc advances past the HLT byte. -/
def execHlt (s : State) : Result := finish 1 .advance s.halt

end Sys2Proof.Machine
end

