-- ==== Sys2Proof/Machine/Flow.lean ====
section
/-! DEFINITION. The meanings of the Flow group: JMP, JEQ, JNE, CALL, RET (44_flow.md). A target is the byte itself:
absolute, unscaled, unchecked (R160). -/

namespace Sys2Proof.Machine

/-- JMP (R161). -/
def execJmp (a : Byte) (s : State) : Result :=
  withReg a s fun ra => finish 2 (.jump (s.reg ra)) s

/-- JEQ (R162): taken when E is set; the operand is checked either way. -/
def execJeq (a : Byte) (s : State) : Result :=
  withReg a s fun ra => finish 2 (if s.fl.E then .jump (s.reg ra) else .advance) s

/-- JNE (R163): taken when E is clear; the operand is checked either way. -/
def execJne (a : Byte) (s : State) : Result :=
  withReg a s fun ra => finish 2 (if s.fl.E then .advance else .jump (s.reg ra)) s

/-- The return address of a CALL: the address after its two bytes (R164). -/
def State.returnAddress (s : State) : Nat := s.pc + 2

/-- CALL (R164): the return address must fit a byte; then SP - 1, the return address goes to the new SP, and the
target R[A] is read after the SP write. -/
def execCall (a : Byte) (s : State) : Result :=
  withReg a s fun ra =>
    if s.returnAddress ≤ 255 then
      let moved := s.setSp s.pushedSp
      withWrite s.pushedSp.toNat (BitVec.ofNat 8 s.returnAddress) s fun m =>
        finish 2 (.jump (moved.reg ra)) (moved.setMem m)
    else raise .outOfBounds s.returnAddress s

/-- RET (R165): the target is the byte at SP, and SP gains one. -/
def execRet (s : State) : Result :=
  withRead s.sp.toNat s fun t => finish 1 (.jump t) (s.setSp s.poppedSp)

end Sys2Proof.Machine
end

