-- ==== Sys2Proof/Machine/Stack.lean ====
section
/-! DEFINITION. The meanings of the Stack group: PUSH, POP (43_stack.md). The written order of the source's effect
column is kept where R7 is the operand (R141, R142; log entry 1, D18). There is no stack limit (R140). -/

namespace Sys2Proof.Machine

/-- PUSH (R141): SP - 1, then the byte R[A], read after the SP write, goes to the new SP. -/
def execPush (a : Byte) (s : State) : Result :=
  withReg a s fun ra =>
    let moved := s.setSp s.pushedSp
    withWrite s.pushedSp.toNat (moved.reg ra) s fun m => finish 2 .advance (moved.setMem m)

/-- POP (R142): R[A] gets the byte at SP, then R7, read after that write, gains one. -/
def execPop (a : Byte) (s : State) : Result :=
  withReg a s fun ra =>
    withRead s.sp.toNat s fun v =>
      let loaded := s.setReg ra v
      finish 2 .advance (loaded.setSp loaded.poppedSp)

end Sys2Proof.Machine
end

