-- ==== Sys2Proof/Machine/Fetch.lean ====
section
/-! DEFINITION. Fetching an instruction's bytes and decoding them, the part of a cycle before the handler
(R82 to R85). -/

namespace Sys2Proof.Machine

/-- Fetch the opcode at pc and the operand bytes that op[7:6] asks for, in address order; a byte that is not there
raises OutOfBounds with its address (R82, R84). This happens for every opcode byte, legal or not (R69). -/
def withFetched (s : State) (k : List Byte → Result) : Result :=
  withRead s.pc s fun op =>
    if operandCount op = 0 then k [op]
    else withRead (s.pc + 1) s fun a =>
      if operandCount op = 1 then k [op, a]
      else withRead (s.pc + 2) s fun b => k [op, a, b]

/-- Look the fetched bytes up (R85): go on with the instruction, or raise UnknownInstruction(op) (R181). Fetched
bytes are never too few; were they, the missing byte's address would be out of bounds. -/
def withDecoded (bytes : List Byte) (s : State) (k : Instr → Result) : Result :=
  match decode bytes with
  | .ok (i, _) => k i
  | .error (.unknownInstruction op) => raise .unknownInstruction op.toNat s
  | .error (.truncated n) => raise .outOfBounds (s.pc + n) s

/-- A cycle up to the handler `run`, which it calls once with the decoded instruction (R90). -/
def cycle (run : Instr → State → Result) (s : State) : Result :=
  withFetched s fun bytes => withDecoded bytes s fun i => run i s

end Sys2Proof.Machine
end

