-- ==== Sys2Proof/Machine/Step.lean ====
section
/-! DEFINITION. One step of the CORE (R90), and where the next instruction is fetched from. -/

namespace Sys2Proof.Machine

/-- The step function of R90, defined when the status is RUNNING; from HALTED and FAULTED the Machine takes no step
(R31, R80). A meaning itself does not look at the run status (log entry 5). -/
def step (s : State) : Host.Outcome State Fault Refusal :=
  match s.status with
  | .running => cycle exec s
  | .halted => .fault .noStepWhenHalted
  | .faulted _ => .fault .noStepWhenFaulted

/-- The state with the instruction of a table word stored at pc, where the step fetches (log entry 9). -/
def State.withFetchWord (s : State) (nbits w : Nat) : State :=
  { s with mem := s.mem.place s.pc (tableBytes nbits w) }

end Sys2Proof.Machine
end

