-- ==== Sys2Proof/Machine/Assembly.lean ====
section
/-! DEFINITION. Assembly text (R73): the mnemonics of the opcode map, the source's long names as synonyms, registers
`R0` to `R7` with `SP` for `R7`, and literals in decimal, hexadecimal or binary. No pseudo-instruction (R74).
Text has no part in what the machine does. What R73 leaves open of the text is log entry 11. -/

namespace Sys2Proof.Machine

/-! ## Writing -/

/-- The mnemonic of R66. -/
def opcodeMnemonic : Opcode → String
  | .hlt => "HLT"
  | .ret => "RET"
  | .push => "PUSH"
  | .pop => "POP"
  | .prn => "PRN"
  | .call => "CALL"
  | .jmp => "JMP"
  | .jeq => "JEQ"
  | .jne => "JNE"
  | .ldi => "LDI"
  | .add => "ADD"
  | .sub => "SUB"
  | .mul => "MUL"
  | .cmp => "CMP"

/-- The source's long name, a synonym of the mnemonic (R73; the names are the opcode table's). -/
def opcodeLongName : Opcode → String
  | .hlt => "Halt"
  | .ret => "Return"
  | .push => "Push"
  | .pop => "Pop"
  | .prn => "PrintRegister"
  | .call => "Call"
  | .jmp => "Jump"
  | .jeq => "JumpIfEqual"
  | .jne => "JumpIfNotEqual"
  | .ldi => "LoadImmediate"
  | .add => "Add"
  | .sub => "Subtract"
  | .mul => "Multiply"
  | .cmp => "Compare"

/-- The decimal digits of a byte. -/
def decimal (v : Byte) : List Char :=
  let digit (n : Nat) : Char := Char.ofNat (48 + n)
  let n := v.toNat
  if n < 10 then [digit n]
  else if n < 100 then [digit (n / 10), digit (n % 10)]
  else [digit (n / 100), digit (n / 10 % 10), digit (n % 10)]

/-- `Ra`. -/
def renderReg (v : Byte) : List Char := 'R' :: decimal v

/-- A line of assembly for an operation and its operand bytes, operands separated by a comma and a space (R73). -/
def renderOpcode (o : Opcode) (a b : Byte) (format : Format) : List Char :=
  match format with
  | .f0 => (opcodeMnemonic o).toList
  | .f1 => (opcodeMnemonic o).toList ++ [' '] ++ renderReg a
  | .f2r => (opcodeMnemonic o).toList ++ [' '] ++ renderReg a ++ [',', ' '] ++ renderReg b
  | .f2i => (opcodeMnemonic o).toList ++ [' '] ++ renderReg a ++ [',', ' '] ++ decimal b

/-- The assembly line of an instruction. -/
def renderInstr : Instr → List Char
  | .hlt => renderOpcode .hlt 0 0 .f0
  | .ret => renderOpcode .ret 0 0 .f0
  | .push a => renderOpcode .push a 0 .f1
  | .pop a => renderOpcode .pop a 0 .f1
  | .prn a => renderOpcode .prn a 0 .f1
  | .call a => renderOpcode .call a 0 .f1
  | .jmp a => renderOpcode .jmp a 0 .f1
  | .jeq a => renderOpcode .jeq a 0 .f1
  | .jne a => renderOpcode .jne a 0 .f1
  | .ldi a imm => renderOpcode .ldi a imm .f2i
  | .add a b => renderOpcode .add a b .f2r
  | .sub a b => renderOpcode .sub a b .f2r
  | .mul a b => renderOpcode .mul a b .f2r
  | .cmp a b => renderOpcode .cmp a b .f2r

/-! ## Reading -/

/-- Split a line at spaces and commas; `word` is the word being read, in reverse. -/
def splitWords (word : List Char) : List Char → List (List Char)
  | [] => if word.isEmpty then [] else [word.reverse]
  | c :: rest =>
    if c = ' ' ∨ c = ',' then
      if word.isEmpty then splitWords [] rest else word.reverse :: splitWords [] rest
    else splitWords (c :: word) rest

/-- The value of a digit below `base`. -/
def digitValue (base : Nat) (c : Char) : Option Nat :=
  let n := c.toNat
  let d := if 48 ≤ n ∧ n ≤ 57 then n - 48
    else if 65 ≤ n ∧ n ≤ 70 then n - 55
    else if 97 ≤ n ∧ n ≤ 102 then n - 87
    else base
  if d < base then some d else none

/-- The value of digits in a base, after `acc`. -/
def digitsValue (base acc : Nat) : List Char → Option Nat
  | [] => some acc
  | c :: rest =>
    match digitValue base c with
    | some d => digitsValue base (base * acc + d) rest
    | none => none

/-- A literal: decimal, `0x` hexadecimal or `0b` binary, and it must fit a byte (R73). -/
def parseLiteral (word : List Char) : Option Byte :=
  let value :=
    match word with
    | [] => none
    | '0' :: 'x' :: d :: rest => digitsValue 16 0 (d :: rest)
    | '0' :: 'b' :: d :: rest => digitsValue 2 0 (d :: rest)
    | word => digitsValue 10 0 word
  match value with
  | some n => if n < 256 then some (BitVec.ofNat 8 n) else none
  | none => none

/-- A register: `R0` to `R7`, or `SP` for `R7` (R73). -/
def parseReg : List Char → Option Byte
  | ['R', d] =>
    match digitValue 8 d with
    | some n => some (BitVec.ofNat 8 n)
    | none => none
  | ['S', 'P'] => some 7
  | _ => none

/-- The row of the opcode map that a mnemonic or a long name stands for. -/
def parseMnemonic (word : List Char) : Option OpcodeRow :=
  opcodeMap.find? fun row => (opcodeMnemonic row.op).toList == word || (opcodeLongName row.op).toList == word

/-- Assemble one line into an instruction (R73). -/
def assembleLine (line : List Char) : Option Instr :=
  match splitWords [] line with
  | [] => none
  | name :: operands =>
    match parseMnemonic name with
    | none => none
    | some row =>
      match row.format, operands with
      | .f0, [] => some (row.op.build 0 0)
      | .f1, [x] => (parseReg x).map fun a => row.op.build a 0
      | .f2r, [x, y] => (parseReg x).bind fun a => (parseReg y).map fun b => row.op.build a b
      | .f2i, [x, y] => (parseReg x).bind fun a => (parseLiteral y).map fun b => row.op.build a b
      | _, _ => none

end Sys2Proof.Machine
end

