-- ==== Sys2Proof/Machine/HostPort.lean ====
section
/-! DEFINITION. What the host does to the CORE and reads from it: the load of a program image, reset after the end of
a run, the status port, the exit code and the lines of the output collaborator (R92, R102, R193, R194, R198, R200 to
R206). None of it happens while the CORE runs (R7). -/

namespace Sys2Proof.Machine

/-! ## Load -/

/-- Why the host refuses a load; the CORE never starts (R198, R205). -/
inductive LoadError where
  /-- The program file is missing or unreadable (R198, R205). -/
  | programNotFound
  /-- A retained token is not exactly eight binary digits (R205). -/
  | malformedToken
  /-- The image has more than N bytes (R205). -/
  | imageTooLong
  /-- The time for the load is past: the CORE has been loaded or has run since its reset (R7, R201; log entry 14). -/
  | notAtReset
deriving DecidableEq, Repr

/-- The CORE is as reset left it, so its load is still to come and no cycle has run (R201; log entry 14). -/
def State.atReset (s : State) : Bool := decide (s = State.resetOfSize s.mem.size)

/-- The host load (R202): `mem[i] <- img[i]` from address 0, and nothing else changes. It happens between reset and the
first cycle only (R7, R201), and an image longer than memory is refused (R205). -/
def State.hostLoad (s : State) (img : List Byte) : Except LoadError State :=
  if s.atReset then
    if img.length ≤ s.mem.size then .ok { s with mem := s.mem.place 0 img } else .error .imageTooLong
  else .error .notAtReset

/-- A line without its comment: what stands before the first `#` (R204). -/
def stripComment (line : List Char) : List Char := line.takeWhile (· ≠ '#')

/-- A line's token: the line without comment and without white space at its two ends; none is left of a blank or
comment-only line (R203, R204; log entry 8). -/
def lineToken (line : List Char) : List Char :=
  (((stripComment line).dropWhile Char.isWhitespace).reverse.dropWhile Char.isWhitespace).reverse

/-- The value of a string of binary digits read from the left, after `acc`. -/
def binaryValue (acc : Nat) : List Char → Option Nat
  | [] => some acc
  | c :: rest =>
    if c = '0' then binaryValue (2 * acc) rest
    else if c = '1' then binaryValue (2 * acc + 1) rest
    else none

/-- A retained token is a base-2 literal of width 8 (R204, R205). -/
def parseToken (token : List Char) : Except LoadError Byte :=
  if token.length = 8 then
    match binaryValue 0 token with
    | some n => .ok (BitVec.ofNat 8 n)
    | none => .error .malformedToken
  else .error .malformedToken

/-- The image of a program file's lines (R203): one byte per retained line, in order. -/
def parseLines : List (List Char) → Except LoadError (List Byte)
  | [] => .ok []
  | line :: rest =>
    match lineToken line with
    | [] => parseLines rest
    | token =>
      match parseToken token with
      | .ok v =>
        match parseLines rest with
        | .ok img => .ok (v :: img)
        | .error e => .error e
      | .error e => .error e

/-- Boot (R201, R206): from the state after reset, load the program file, given as its lines, or as none when it is
missing or unreadable. The run starts from the answer, at pc = 0. -/
def boot (size : Nat) (file : Option (List (List Char))) : Except LoadError State :=
  match file with
  | none => .error .programNotFound
  | some lines =>
    match parseLines lines with
    | .ok img => (State.resetOfSize size).hostLoad img
    | .error e => .error e

/-! ## Reset by the host -/

/-- The run has ended: HALTED or FAULTED (R92). -/
def RunStatus.ended : RunStatus → Bool
  | .running => false
  | .halted => true
  | .faulted _ => true

/-- Reset, the only way to leave HALTED or FAULTED; the host cannot reset a running CORE (R187, R200). Every field
takes its reset value; the size of memory is the hardware's and stays (log entry 12). -/
def State.hostReset (s : State) : Option State :=
  if s.status.ended then some (State.resetOfSize s.mem.size) else none

/-! ## The status port -/

/-- The status code: 0 RUNNING, 1 HALTED, 2 UnknownInstruction, 3 InvalidRegister, 4 OutOfBounds (R193). -/
def RunStatus.code : RunStatus → Nat
  | .running => 0
  | .halted => 1
  | .faulted r =>
    match r.kind with
    | .unknownInstruction => 2
    | .invalidRegister => 3
    | .outOfBounds => 4

/-- The fault record, while FAULTED (R32). -/
def RunStatus.record : RunStatus → Option FaultRecord
  | .faulted r => some r
  | .running => none
  | .halted => none

/-- What the status port carries (R193): pc, fpc and info are 9 bits wide, and FL is the byte `0b00000LGE`. -/
structure StatusPort where
  status : Nat
  fpc : Option (BitVec 9)
  info : Option (BitVec 9)
  regs : Vector Byte 8
  fl : Byte
  pc : BitVec 9
  mem : Memory
deriving DecidableEq, Repr

/-- Reading the status port: the host reads it only once the run has ended (R193; log entry 10). -/
def State.statusPort (s : State) : Option StatusPort :=
  if s.status.ended then
    some
      { status := s.status.code
        fpc := s.status.record.map fun r => BitVec.ofNat 9 r.fpc
        info := s.status.record.map fun r => BitVec.ofNat 9 r.info
        regs := s.regs
        fl := s.fl.toByte
        pc := BitVec.ofNat 9 s.pc
        mem := s.mem }
  else none

/-! ## The exit code and the output -/

/-- A non-zero exit code whose value the spec leaves free (R194, U17 of 93_implementation_defined.md). -/
def nonZeroExit (n : Nat) : Nat := Config.freeExitCode n + 1

/-- The process exit code of a run that has ended: 0 on Halt, non-zero on a fault (R194). -/
def RunStatus.exitCode (st : RunStatus) : Option Nat :=
  match st with
  | .running => none
  | .halted => some 0
  | .faulted _ => some (nonZeroExit st.code)

/-- The process exit code of a refused load: non-zero (R194, R198). -/
def LoadError.exitCode : LoadError → Nat
  | .programNotFound => nonZeroExit 5
  | .malformedToken => nonZeroExit 6
  | .imageTooLong => nonZeroExit 7
  | .notAtReset => nonZeroExit 8

/-- The line the output collaborator prints for a byte: its unsigned value in decimal (R102, R103). -/
def renderOutput (v : Byte) : String := toString v.toNat

end Sys2Proof.Machine
end

