-- ==== Sys2Proof/Safety.lean ====
section
/-! DEFINITION. What the CORE's states have in common, and what a run is: the terms the statements use. -/

namespace Sys2Proof.Machine

/-- The record of a fault names the address pc still holds, and info is at most 256 (R32, R184, R193). -/
def RunStatus.recordOk (pc : Nat) : RunStatus → Bool
  | .running => true
  | .halted => true
  | .faulted r => decide (r.fpc = pc) && decide (r.info ≤ 256)

/-- The invariant of every step. Memory is in its canonical form and has an allowed length; pc fits its nine bits and
is at most 256 (R27; log entry 3); at most one flag is set (R29); the fault record is as R32 says. -/
def State.Inv (s : State) : Prop :=
  s.mem.wf = true ∧ s.pc ≤ 256 ∧ s.fl.atMostOne = true ∧ s.status.recordOk s.pc = true

/-- `k` steps lead from `s` to `t` (R92). -/
def Reaches (k : Nat) (s t : State) : Prop := Sys2Proof.core.run k s = .next t

/-- The run is still going after `k` steps: it has neither halted nor faulted (R92). -/
def StillRunning (k : Nat) (s : State) : Prop := ∃ t, Reaches k s t ∧ t.status = .running

/-- The run from `s` is safe for `k` steps: it never comes to FAULTED (R92, R180). A run that has ended in HALTED
stays safe. -/
def SafeFor (k : Nat) (s : State) : Prop :=
  ∀ j t r, j ≤ k → Reaches j s t → t.status ≠ .faulted r

end Sys2Proof.Machine
end

