-- ==== Sys2Proof/Certificates/Slice0/Obligations.lean ====
section
/-! DEFINITION. The statements for the provers. Where a docstring says "spec decision D<n>", the clause it names rests on a
row of 92_eei_decisions.md, which the spec marks as its own choice (log entry 1). -/

namespace Sys2Proof.Claims

open Sys2Proof.Machine

/-- The state a fault leaves: the run status holds the record, and everything else is as before (R32, R184). -/
def faultedAs (s : State) (kind : FaultKind) (info : Nat) : State :=
  { s with status := .faulted { kind := kind, fpc := s.pc, info := info } }

/-- The state is not FAULTED. -/
def NotFaulted (s : State) : Prop := ∀ r, s.status ≠ .faulted r

/-- The byte at an address, 0 where there is none. -/
def byteAt (s : State) (a : Nat) : Byte := (s.mem.read a).getD 0

/-- The register an operand byte names, 0 where there is none. -/
def regAt (s : State) (a : Byte) : Byte := s.regs[a.toNat]?.getD 0

/-- Memory after storing `v` at `addr`: that byte, every other byte and the length are said. -/
def StoredOnly (s t : State) (addr : Nat) (v : Byte) : Prop :=
  t.mem.size = s.mem.size ∧ t.mem.read addr = some v ∧ ∀ x, x ≠ addr → t.mem.read x = s.mem.read x

/-- The outcome with its next state replaced by a view of it. -/
def mapNext (view : State → State) : Result → Result
  | .next t => .next (view t)
  | .fault f => .fault f
  | .refused r => .refused r

/-- The state without what L and G hold. -/
def eraseLG (s : State) : State := { s with fl := { L := false, G := false, E := s.fl.E } }

/-- The registers an instruction's row of R25 lists as written. -/
def WritesReg (r : Reg) : Instr → Prop
  | .hlt => False
  | .ret => r = 7
  | .push _ => r = 7
  | .pop a => a = operandOf r ∨ r = 7
  | .prn _ => False
  | .call _ => r = 7
  | .jmp _ => False
  | .jeq _ => False
  | .jne _ => False
  | .ldi a _ => a = operandOf r
  | .add a _ => a = operandOf r
  | .sub a _ => a = operandOf r
  | .mul a _ => a = operandOf r
  | .cmp _ _ => False

/-- The address an instruction stores to, where it stores (R43): PUSH and CALL store at the new SP. -/
def storeAddress (s : State) : Instr → Option Nat
  | .push _ => some s.pushedSp.toNat
  | .call _ => some s.pushedSp.toNat
  | .hlt | .ret | .pop _ | .prn _ | .jmp _ | .jeq _ | .jne _ | .ldi _ _ | .add _ _ | .sub _ _ | .mul _ _
  | .cmp _ _ => none

/-- The PC an instruction that does not fault leaves (R88): the target of a jump, call or return, or the default
advance `pc + 1 + cnt`. -/
def pcAfter (s : State) (i : Instr) : Nat :=
  let advance := s.pc + 1 + operandCount ((encode i).headD 0)
  match i with
  | .jmp a => (regAt s a).toNat
  | .jeq a => if s.fl.E then (regAt s a).toNat else advance
  | .jne a => if s.fl.E then advance else (regAt s a).toNat
  | .call a => (if a = operandOf 7 then s.pushedSp else regAt s a).toNat
  | .ret => (byteAt s s.sp.toNat).toNat
  | .hlt | .push _ | .pop _ | .prn _ | .ldi _ _ | .add _ _ | .sub _ _ | .mul _ _ | .cmp _ _ => advance

/-- An instruction's own checks, item 7 of R185, in the order its rule lists them. -/
def ownFault (s : State) : Instr → Option (FaultKind × Nat)
  | .push _ => if s.mem.size ≤ s.pushedSp.toNat then some (.outOfBounds, s.pushedSp.toNat) else none
  | .call _ =>
    if 255 < s.pc + 2 then some (.outOfBounds, s.pc + 2)
    else if s.mem.size ≤ s.pushedSp.toNat then some (.outOfBounds, s.pushedSp.toNat) else none
  | .pop _ => if s.mem.size ≤ s.sp.toNat then some (.outOfBounds, s.sp.toNat) else none
  | .ret => if s.mem.size ≤ s.sp.toNat then some (.outOfBounds, s.sp.toNat) else none
  | .hlt | .prn _ | .jmp _ | .jeq _ | .jne _ | .ldi _ _ | .add _ _ | .sub _ _ | .mul _ _ | .cmp _ _ => none

/-- The fault a cycle reports, the first in the order of R185, or none. -/
def expectedFault (s : State) : Option (FaultKind × Nat) :=
  if s.mem.size ≤ s.pc then some (.outOfBounds, s.pc)
  else if 1 ≤ operandCount (byteAt s s.pc) ∧ s.mem.size ≤ s.pc + 1 then some (.outOfBounds, s.pc + 1)
  else if 2 ≤ operandCount (byteAt s s.pc) ∧ s.mem.size ≤ s.pc + 2 then some (.outOfBounds, s.pc + 2)
  else match decodeOpcode (byteAt s s.pc) with
    | none => some (.unknownInstruction, (byteAt s s.pc).toNat)
    | some o =>
      let i := o.build (byteAt s (s.pc + 1)) (byteAt s (s.pc + 2))
      match i.registerOperands.find? fun v => decide (7 < v.toNat) with
      | some v => some (.invalidRegister, v.toNat)
      | none => ownFault s i

/-- Writes performed one after another. -/
def storeAll (m : Memory) (writes : List (Nat × Byte)) : Memory :=
  writes.foldl (fun m w => (m.write w.1 w.2).getD m) m

/-- The eight binary digits of a byte, the highest first: a line of a program file (R204). -/
def binaryLine (v : Byte) : List Char := (List.range 8).map fun k => if v.getLsbD (7 - k) then '1' else '0'

/-- White space alone; which characters are white space is the model's choice (log entry 8). -/
def White (text : List Char) : Prop := ∀ c ∈ text, c.isWhitespace = true

/-- A line of a program file that holds this token: white space may stand before and after it, and a comment that
begins with `#` may end the line (R204). A line that holds the empty token is blank or a comment alone. -/
def LineHolds (token line : List Char) : Prop :=
  ∃ before after comment : List Char, White before ∧ White after ∧ (comment = [] ∨ comment.head? = some '#') ∧
    line = before ++ token ++ after ++ comment

/-- What a retained line holds: some text without `#`, white space at neither end. White space inside it, the model's
choice, is part of the token (log entry 8). -/
def IsToken (token : List Char) : Prop :=
  '#' ∉ token ∧ (∃ c, token.head? = some c ∧ c.isWhitespace = false) ∧
    ∃ c, token.getLast? = some c ∧ c.isWhitespace = false

/-- The next cycle, when memory reads as `seen` says: the opcode byte at pc and the operand bytes it counts are the bytes
of `seen`, and the step is that instruction's meaning or UnknownInstruction. -/
def FetchesFrom (t : State) (seen : Nat → Option Byte) : Prop :=
  ∀ op a b : Byte, seen t.pc = some op → (1 ≤ operandCount op → seen (t.pc + 1) = some a) →
    (2 ≤ operandCount op → seen (t.pc + 2) = some b) →
    step t = match decodeOpcode op with
      | some o => exec (o.build a b) t
      | none => .next (faultedAs t .unknownInstruction op.toNat)

/-- What memory read before, but for `v` at `addr`. -/
def withStored (s : State) (addr : Nat) (v : Byte) (x : Nat) : Option Byte :=
  if x = addr then some v else s.mem.read x

/-- The instruction leaves pc at `target` and the machine RUNNING, and the next cycle's fetch raises OutOfBounds(target). -/
def FaultsAtTheFetchOf (target : Nat) (i : Instr) (s : State) : Prop :=
  ∃ t, exec i s = .next t ∧ t.status = .running ∧ t.pc = target ∧ step t = .next (faultedAs t .outOfBounds target)

/-- These instructions execute one after another from `s` to `t`, each of them leaving the run status RUNNING. -/
def Executes : List Instr → State → State → Prop
  | [], s, t => t = s
  | i :: rest, s, t => ∃ u, exec i s = .next u ∧ u.status = .running ∧ Executes rest u t

/-- An instruction that neither uses the stack nor writes R7 (the premise of R143 and R166). -/
def StackFree : Instr → Prop
  | .hlt | .prn _ | .jmp _ | .jeq _ | .jne _ | .cmp _ _ => True
  | .ldi a _ | .add a _ | .sub a _ | .mul a _ => a ≠ operandOf 7
  | .ret | .push _ | .pop _ | .call _ => False

/-- Executed instructions in which every push is matched by a pop and every call by a return, R7 is written by
those alone, and at most `d` bytes are on the stack at once (the premise of R143 and R166). -/
inductive Balanced : Nat → List Instr → Prop
  | nil (d : Nat) : Balanced d []
  | plain {d : Nat} {i : Instr} {rest : List Instr} : StackFree i → Balanced d rest → Balanced d (i :: rest)
  | pushPop {d : Nat} {x y : Byte} {body rest : List Instr} : y ≠ operandOf 7 → Balanced d body →
      Balanced (d + 1) rest → Balanced (d + 1) (.push x :: (body ++ .pop y :: rest))
  | callRet {d : Nat} {x : Byte} {body rest : List Instr} : Balanced d body →
      Balanced (d + 1) rest → Balanced (d + 1) (.call x :: (body ++ .ret :: rest))

end Sys2Proof.Claims

open Sys2Proof Sys2Proof.Machine Sys2Proof.Claims

/-! ## Encoding -/

/-- Decoding and encoding agree in both directions: the decoder answers an instruction and the rest of the bytes
exactly when the bytes are that instruction's words followed by that rest. So no operand bit is dropped, and each
word has one meaning (30_encoding.md R62, R65, R71). The opcode bytes are spec decision D1. -/
def Obligations.DecodeAnswersExactlyTheEncodedInstruction : Prop :=
  ∀ (bytes rest : List Byte) (i : Instr), decode bytes = .ok (i, rest) ↔ bytes = encode i ++ rest

/-- Of the opcode bytes, exactly the fourteen of R66 are instructions; with its operand bytes there, every other byte is
rejected by name (R65, R68). Spec decisions D1, D3 and D12. -/
def Obligations.DecodeRejectsEveryOtherOpcodeByte : Prop :=
  (∀ (op a b : Byte) (rest : List Byte), decode (op :: a :: b :: rest) = .error (.unknownInstruction op) ↔
    op ∉ ([0x01, 0x11, 0x45, 0x46, 0x47, 0x50, 0x54, 0x55, 0x56, 0x82, 0xA0, 0xA1, 0xA2, 0xA7] : List Byte)) ∧
  ((List.range 256).countP fun n => (decodeOpcode (BitVec.ofNat 8 n)).isSome) = 14 ∧
  ∀ op : Byte, operandCount op = 3 → decodeOpcode op = none

/-- Too few bytes are rejected by the offset of the first byte that is missing, and before the byte is looked up, for
legal and illegal opcodes alike (R69, R72, R84). Spec decision D12. -/
def Obligations.DecodeReportsTheFirstMissingByte : Prop :=
  decode [] = .error (.truncated 0) ∧
  (∀ op : Byte, 1 ≤ operandCount op → decode [op] = .error (.truncated 1)) ∧
  ∀ op a : Byte, 2 ≤ operandCount op → decode [op, a] = .error (.truncated 2)

/-- Words written out from the spec's encodings (R66, R101 to R165, and the examples of 95_test_vectors.md) decode to
the instructions they stand for. Spec decision D1. -/
def Obligations.SpecWordsDecode : Prop :=
  decode [0b00000001] = .ok (.hlt, []) ∧
  decode [0b00010001] = .ok (.ret, []) ∧
  decode [0b01000101, 0] = .ok (.push 0, []) ∧
  decode [0b01000110, 5] = .ok (.pop 5, []) ∧
  decode [0b01000111, 0] = .ok (.prn 0, []) ∧
  decode [0b01010000, 1] = .ok (.call 1, []) ∧
  decode [0b01010100, 4] = .ok (.jmp 4, []) ∧
  decode [0b01010101, 3] = .ok (.jeq 3, []) ∧
  decode [0b01010110, 3] = .ok (.jne 3, []) ∧
  decode [0b10000010, 0, 8] = .ok (.ldi 0 8, []) ∧
  decode [0b10100000, 0, 1] = .ok (.add 0 1, []) ∧
  decode [0b10100001, 0, 1] = .ok (.sub 0 1, []) ∧
  decode [0b10100010, 0, 1] = .ok (.mul 0 1, []) ∧
  decode [0b10100111, 0, 1] = .ok (.cmp 0 1, [])

/-- The opcode byte's fields in the map: op[7:6] is the format's operand count, op[5] is set exactly on the ALU group,
op[4] exactly on the instructions that set the PC (R61, R62, R66). Spec decisions D1 and D2. -/
def Obligations.OpcodeFieldsMatchTheMap : Prop :=
  ∀ row ∈ opcodeMap,
    operandCount row.byte = (match row.format with | .f0 => 0 | .f1 => 1 | .f2r => 2 | .f2i => 2) ∧
    (aluFlag row.byte = true ↔ row.op ∈ [Opcode.add, Opcode.sub, Opcode.mul, Opcode.cmp]) ∧
    (setsPcFlag row.byte = true ↔ row.op ∈ [Opcode.call, Opcode.ret, Opcode.jmp, Opcode.jeq, Opcode.jne])

/-- The decoder keyed on the operand count and the operation id accepts the same bytes as the one that matches the whole
byte, and reads the same operations; the fourteen ids are distinct (R67, which the spec derives from R65 and R66). -/
def Obligations.IdKeyedDecoderIsEquivalent : Prop :=
  (opcodeMap.map fun row => operationId row.byte).Nodup ∧ ∀ op : Byte, decodeOpcodeById op = decodeOpcode op

/-! ## The loop -/

/-- A step runs the decoded instruction: from RUNNING, when the bytes at pc are an instruction's words, the step is that
instruction's meaning in that state, and nothing is added around it (R81, R87, R90). -/
def Obligations.StepRunsTheDecodedInstruction : Prop :=
  ∀ (i : Instr) (s : State), s.status = .running →
    (∀ k, k < i.length → s.mem.read (s.pc + k) = (encode i)[k]?) → step s = exec i s

/-- Fetch, operand read and dispatch. `pc ≥ N` raises OutOfBounds(pc). If op[7:6] ≥ 1 operand A is read at pc + 1, and if
≥ 2 operand B at pc + 2, for every byte; a missing one raises OutOfBounds with its address. Then the byte is looked up:
an instruction is executed with those operands, and an unknown byte raises UnknownInstruction, with no other effect
(R82, R84, R85). Which bytes are instructions is spec decisions D1 and D3, that OutOfBounds changes nothing else R184 and
D10, the operands of a byte that counts three D12. -/
def Obligations.FetchOperandReadAndDispatch : Prop :=
  ∀ s : State, s.status = .running →
    (s.mem.size ≤ s.pc → step s = .next (faultedAs s .outOfBounds s.pc)) ∧
    ∀ op : Byte, s.mem.read s.pc = some op →
      (1 ≤ operandCount op → s.mem.size ≤ s.pc + 1 → step s = .next (faultedAs s .outOfBounds (s.pc + 1))) ∧
      (2 ≤ operandCount op → s.pc + 1 < s.mem.size → s.mem.size ≤ s.pc + 2 →
        step s = .next (faultedAs s .outOfBounds (s.pc + 2))) ∧
      ∀ a b : Byte, (1 ≤ operandCount op → s.mem.read (s.pc + 1) = some a) →
        (2 ≤ operandCount op → s.mem.read (s.pc + 2) = some b) →
        step s = match decodeOpcode op with
          | some o => exec (o.build a b) s
          | none => .next (faultedAs s .unknownInstruction op.toNat)

/-- UnknownInstruction is fatal: a fetched opcode byte that is no instruction, with the operand bytes it counts in
memory, leaves the record (UnknownInstruction, pc, op) and nothing else changed, at any position, and execution halts
immediately: from there no step is taken. 242 bytes are no instruction, and the 0x00 of zero-filled memory is one of
them (R181). -/
def Obligations.UnknownInstructionIsFatal : Prop :=
  ((List.range 256).countP fun n => (decodeOpcode (BitVec.ofNat 8 n)).isNone) = 242 ∧ decodeOpcode 0x00 = none ∧
  ∀ (s : State) (op : Byte), s.status = .running → s.mem.read s.pc = some op → decodeOpcode op = none →
    (1 ≤ operandCount op → s.pc + 1 < s.mem.size) → (2 ≤ operandCount op → s.pc + 2 < s.mem.size) →
    step s = .next { s with status := .faulted ⟨.unknownInstruction, s.pc, op.toNat⟩ } ∧
    step { s with status := .faulted ⟨.unknownInstruction, s.pc, op.toNat⟩ } = .fault .noStepWhenFaulted

/-- InvalidRegister: an operand that the instruction defines as a register index is above 7. That is operand A of the
eight instructions with one register operand, and operands A and B of ADD, SUB, MUL and CMP; the record is
(InvalidRegister, pc, the operand byte), and nothing else changes. With both above 7 the record names one of the two
(which one, the statements about ADD, SUB, MUL and CMP say). No meaning raises it otherwise: that is said of `exec`
alone, not of the fetch and the lookup of a step (R182). That nothing else changes is R184, spec decision D10; that it
comes before the OutOfBounds of CALL, PUSH and POP is R185, D11; that a JEQ or JNE that is not taken raises it is R86,
D13. -/
def Obligations.InvalidRegisterIsRaised : Prop :=
  (∀ (a b : Byte) (s : State), 7 < a.toNat →
    ∀ i ∈ [Instr.ldi a b, .prn a, .push a, .pop a, .jmp a, .jeq a, .jne a, .call a],
      exec i s = .next { s with status := .faulted ⟨.invalidRegister, s.pc, a.toNat⟩ }) ∧
  (∀ (a b : Byte) (s : State), ∀ i ∈ [Instr.add a b, .sub a b, .mul a b, .cmp a b],
    (7 < a.toNat → b.toNat ≤ 7 → exec i s = .next { s with status := .faulted ⟨.invalidRegister, s.pc, a.toNat⟩ }) ∧
    (a.toNat ≤ 7 → 7 < b.toNat → exec i s = .next { s with status := .faulted ⟨.invalidRegister, s.pc, b.toNat⟩ }) ∧
    (7 < a.toNat → 7 < b.toNat → ∃ v, (v = a ∨ v = b) ∧
      exec i s = .next { s with status := .faulted ⟨.invalidRegister, s.pc, v.toNat⟩ })) ∧
  ∀ (i : Instr) (s t : State) (r : FaultRecord), i.wellFormed = true → s.status = .running → exec i s = .next t →
    t.status = .faulted r → r.kind ≠ .invalidRegister

/-- A cycle reports the first fault in the order of R185 and no other, and a cycle for which that order gives none does
not fault: the step agrees with the order written out as a function (R185). Spec decisions D1 and D3 (which bytes are
instructions), D10 (a fault changes nothing else), D11, D12, D13 and D15. -/
def Obligations.CycleReportsTheFirstFaultInOrder : Prop :=
  ∀ s : State, s.status = .running →
    match expectedFault s with
    | some (kind, info) => step s = .next (faultedAs s kind info)
    | none => ∃ t, step s = .next t ∧ NotFaulted t

/-- Every fault is precise: a step that ends in FAULTED changes the run status alone, and the record names the address
that pc holds before and after (R184). Spec decision D10. -/
def Obligations.FaultsArePrecise : Prop :=
  ∀ (s t : State) (r : FaultRecord), step s = .next t → t.status = .faulted r →
    t = { s with status := .faulted r } ∧ r.fpc = s.pc ∧ r.fpc = t.pc

/-- From RUNNING the Machine always takes a step; from HALTED and FAULTED it never does (R31, R80). Spec decision D14. -/
def Obligations.ExactlyTheRunningMachineSteps : Prop :=
  ∀ s : State, (s.status = .running ↔ ∃ t, step s = .next t) ∧
    (s.status = .halted → step s = .fault .noStepWhenHalted) ∧
    ∀ r, s.status = .faulted r → step s = .fault .noStepWhenFaulted

/-- The length of an instruction is 1 + op[7:6], 1, 2 or 3 as the table gives it, and the PC is updated once: by the
default advance `1 + operand_count`, or, in a jump, call or return that is taken, to its target, without the advance.
`pc` is the value at fetch (R64, R88). The target of CALL R7 is spec decision D18, the opcode bytes are D1. -/
def Obligations.PcIsUpdatedByLengthOrByTarget : Prop :=
  (∀ i : Instr, i.length = 1 + operandCount ((encode i).headD 0)) ∧
  (∀ a b : Byte,
    (∀ i ∈ [Instr.hlt, .ret], i.length = 1) ∧
    (∀ i ∈ [Instr.push a, .pop a, .prn a, .call a, .jmp a, .jeq a, .jne a], i.length = 2) ∧
    ∀ i ∈ [Instr.ldi a b, .add a b, .sub a b, .mul a b, .cmp a b], i.length = 3) ∧
  ∀ (i : Instr) (s t : State), exec i s = .next t → NotFaulted t → t.pc = pcAfter s i

/-- A run either goes on for ever or comes to HALTED or FAULTED, and from there no further step exists (R80, R92). Spec
decision D14. -/
def Obligations.RunEndsExactlyWhenHaltedOrFaulted : Prop :=
  ∀ s : State, s.status = .running →
    (∀ k, StillRunning k s) ∨
    ∃ k t, Reaches k s t ∧ t.status.ended = true ∧ ∀ j u, ¬ Reaches (k + j + 1) s u

/-- A JMP to its own address never ends: the run is still RUNNING after any number of steps (R92, R161). -/
def Obligations.JumpToItselfRunsForever : Prop :=
  ∀ (s : State) (r : Reg), s.status = .running → s.mem.read s.pc = some 0x54 →
    s.mem.read (s.pc + 1) = some (operandOf r) → (s.regs[r]).toNat = s.pc → ∀ k, StillRunning k s

/-! ## Data and control -/

/-- LDI (R101): the encoding, the register check (operand B is never checked), and the effect for every register, R7
among them, with everything else unchanged. The opcode byte is spec decision D1. -/
def Obligations.LdiLoadsItsLiteral : Prop :=
  (∀ a imm : Byte, encode (.ldi a imm) = [0x82, a, imm]) ∧
  (∀ (a imm : Byte) (s : State), 7 < a.toNat →
    exec (.ldi a imm) s = .next (faultedAs s .invalidRegister a.toNat)) ∧
  ∀ (r : Reg) (imm : Byte) (s : State),
    exec (.ldi (operandOf r) imm) s = .next { s with regs := s.regs.set r imm, pc := s.pc + 3 }

/-- PRN (R103): it appends the register's value to the output log and changes nothing else; a faulting PRN emits
nothing. The opcode byte is spec decision D1, the output log D19. -/
def Obligations.PrnAppendsTheRegister : Prop :=
  (∀ a : Byte, encode (.prn a) = [0x47, a]) ∧
  (∀ (a : Byte) (s : State), 7 < a.toNat → exec (.prn a) s = .next (faultedAs s .invalidRegister a.toNat)) ∧
  ∀ (r : Reg) (s : State), exec (.prn (operandOf r)) s = .next { s with out := s.out ++ [s.regs[r]], pc := s.pc + 2 }

/-- HLT (R104): status HALTED and pc one past the HLT byte, at the last cell too; no step follows, so no fault is
raised. The opcode byte is spec decision D1, that HALTED is terminal D14. -/
def Obligations.HltHaltsPastItsByte : Prop :=
  encode .hlt = [0x01] ∧
  ∀ s : State, exec .hlt s = .next { s with status := .halted, pc := s.pc + 1 } ∧
    step { s with status := .halted, pc := s.pc + 1 } = .fault .noStepWhenHalted

/-! ## ALU -/

/-- All register arithmetic wraps modulo 256: a sum of 256 or more has 256 subtracted, a negative difference has 256
added, a product keeps its low eight bits and stores its high part nowhere; and no flag records an overflow, carry or
borrow (R120). -/
def Obligations.ArithmeticWrapsModulo256 : Prop :=
  ∀ (ra rb : Reg) (s : State),
    (∃ t, exec (.add (operandOf ra) (operandOf rb)) s = .next t ∧ t.fl = s.fl ∧
      ((t.reg ra).toNat : Int) = ((s.reg ra).toNat + (s.reg rb).toNat : Int) % 256 ∧
      (256 ≤ (s.reg ra).toNat + (s.reg rb).toNat →
        (t.reg ra).toNat = (s.reg ra).toNat + (s.reg rb).toNat - 256)) ∧
    (∃ t, exec (.sub (operandOf ra) (operandOf rb)) s = .next t ∧ t.fl = s.fl ∧
      ((t.reg ra).toNat : Int) = ((s.reg ra).toNat - (s.reg rb).toNat : Int) % 256 ∧
      ((s.reg ra).toNat < (s.reg rb).toNat →
        (t.reg ra).toNat = (s.reg ra).toNat + 256 - (s.reg rb).toNat)) ∧
    ∃ t, exec (.mul (operandOf ra) (operandOf rb)) s = .next t ∧ t.fl = s.fl ∧
      ((t.reg ra).toNat : Int) = ((s.reg ra).toNat * (s.reg rb).toNat : Int) % 256 ∧
      (∀ r, r ≠ ra → t.reg r = s.reg r) ∧ t = { s with regs := t.regs, pc := t.pc }

/-- ADD (R122): the encoding, the two register checks, A first, and the effect, with both registers read before the
write, the same register twice included. The opcode byte is spec decision D1. -/
def Obligations.AddWritesTheSum : Prop :=
  (∀ a b : Byte, encode (.add a b) = [0xA0, a, b]) ∧
  (∀ (a b : Byte) (s : State), 7 < a.toNat → exec (.add a b) s = .next (faultedAs s .invalidRegister a.toNat)) ∧
  (∀ (a b : Byte) (s : State), a.toNat ≤ 7 → 7 < b.toNat →
    exec (.add a b) s = .next (faultedAs s .invalidRegister b.toNat)) ∧
  ∀ (ra rb : Reg) (s : State), exec (.add (operandOf ra) (operandOf rb)) s =
    .next { s with
      regs := s.regs.set ra (BitVec.ofNat 8 (((s.regs[ra]).toNat + (s.regs[rb]).toNat) % 256)), pc := s.pc + 3 }

/-- SUB (R123): the encoding, the two register checks, A first, and the effect; and ADD then SUB with the same, distinct
registers is the identity on the register file, wrapped or not. The opcode byte is spec decision D1. -/
def Obligations.SubWritesTheDifference : Prop :=
  (∀ a b : Byte, encode (.sub a b) = [0xA1, a, b]) ∧
  (∀ (a b : Byte) (s : State), 7 < a.toNat → exec (.sub a b) s = .next (faultedAs s .invalidRegister a.toNat)) ∧
  (∀ (a b : Byte) (s : State), a.toNat ≤ 7 → 7 < b.toNat →
    exec (.sub a b) s = .next (faultedAs s .invalidRegister b.toNat)) ∧
  (∀ (ra rb : Reg) (s : State), exec (.sub (operandOf ra) (operandOf rb)) s =
    .next { s with
      regs := s.regs.set ra
        (BitVec.ofNat 8 (((s.regs[ra]).toNat - (s.regs[rb]).toNat : Int) % 256).toNat), pc := s.pc + 3 }) ∧
  ∀ (ra rb : Reg) (s : State), ra ≠ rb →
    ∃ t u, exec (.add (operandOf ra) (operandOf rb)) s = .next t ∧
      exec (.sub (operandOf ra) (operandOf rb)) t = .next u ∧ u.regs = s.regs

/-- MUL (R124): the encoding, the two register checks, A first, and the effect: the low eight bits of the unsigned
product. The opcode byte is spec decision D1. -/
def Obligations.MulWritesTheLowByteOfTheProduct : Prop :=
  (∀ a b : Byte, encode (.mul a b) = [0xA2, a, b]) ∧
  (∀ (a b : Byte) (s : State), 7 < a.toNat → exec (.mul a b) s = .next (faultedAs s .invalidRegister a.toNat)) ∧
  (∀ (a b : Byte) (s : State), a.toNat ≤ 7 → 7 < b.toNat →
    exec (.mul a b) s = .next (faultedAs s .invalidRegister b.toNat)) ∧
  ∀ (ra rb : Reg) (s : State), exec (.mul (operandOf ra) (operandOf rb)) s =
    .next { s with
      regs := s.regs.set ra (BitVec.ofNat 8 (((s.regs[ra]).toNat * (s.regs[rb]).toNat) % 256)), pc := s.pc + 3 }

/-- Compare's order is the unsigned one: for every pair exactly one outcome holds, exactly one flag is set, and G is set
when and only when R[A] > R[B] (R125, R126). -/
def Obligations.CompareSetsExactlyOneFlag : Prop :=
  ∀ (ra rb : Reg) (s : State), ∃ t, exec (.cmp (operandOf ra) (operandOf rb)) s = .next t ∧
    (t.fl.L = true ↔ (s.regs[ra]).toNat < (s.regs[rb]).toNat) ∧
    (t.fl.G = true ↔ (s.regs[rb]).toNat < (s.regs[ra]).toNat) ∧
    (t.fl.E = true ↔ s.regs[ra] = s.regs[rb]) ∧
    (t.fl = ⟨true, false, false⟩ ∨ t.fl = ⟨false, true, false⟩ ∨ t.fl = ⟨false, false, true⟩)

/-- CMP (R127): the encoding, the two register checks, A first, and the effect: all three flags are written, whatever
they were, and no register is. The opcode byte is spec decision D1. -/
def Obligations.CmpWritesTheThreeFlags : Prop :=
  (∀ a b : Byte, encode (.cmp a b) = [0xA7, a, b]) ∧
  (∀ (a b : Byte) (s : State), 7 < a.toNat → exec (.cmp a b) s = .next (faultedAs s .invalidRegister a.toNat)) ∧
  (∀ (a b : Byte) (s : State), a.toNat ≤ 7 → 7 < b.toNat →
    exec (.cmp a b) s = .next (faultedAs s .invalidRegister b.toNat)) ∧
  ∀ (ra rb : Reg) (s : State), exec (.cmp (operandOf ra) (operandOf rb)) s =
    .next { s with
      fl := { L := BitVec.ult s.regs[ra] s.regs[rb], G := BitVec.ult s.regs[rb] s.regs[ra],
              E := s.regs[ra] == s.regs[rb] },
      pc := s.pc + 3 }

/-! ## Stack -/

/-- SP moves modulo 256, down before a push and up after a pop: PUSH and CALL that complete leave SP - 1 and write no
byte but the one at the new SP, so from 0x00 they leave 0xFF; POP into another register than R7 and RET take the byte
at the old SP and leave SP + 1, so from 0xFF they leave 0x00 (R23). -/
def Obligations.StackPointerWrapsModulo256 : Prop :=
  (∀ (i : Instr) (r : Reg) (s t : State), i = .push (operandOf r) ∨ i = .call (operandOf r) →
    exec i s = .next t → s.status = .running → t.status = .running →
    t.sp.toNat = (s.sp.toNat + 255) % 256 ∧ (s.sp = 0x00 → t.sp = 0xFF) ∧
      ∀ x, x ≠ t.sp.toNat → t.mem.read x = s.mem.read x) ∧
  (∀ (r : Reg) (s t : State), r ≠ 7 → exec (.pop (operandOf r)) s = .next t → s.status = .running →
    t.status = .running → t.sp.toNat = (s.sp.toNat + 1) % 256 ∧ (s.sp = 0xFF → t.sp = 0x00) ∧
      s.mem.read s.sp.toNat = some (t.reg r)) ∧
  ∀ s t : State, exec .ret s = .next t → s.status = .running → t.status = .running →
    t.sp.toNat = (s.sp.toNat + 1) % 256 ∧ (s.sp = 0xFF → t.sp = 0x00) ∧
      ∃ v, s.mem.read s.sp.toNat = some v ∧ t.pc = v.toNat

/-- PUSH (R141): the encoding, the checks, and the effect. SP becomes SP - 1 modulo 256, and the byte at that address
becomes R[A], which for R7 is the decremented SP (spec decision D18); every other byte and field is as before. The
opcode byte is spec decision D1. -/
def Obligations.PushStoresBelowTheStackPointer : Prop :=
  (∀ a : Byte, encode (.push a) = [0x45, a]) ∧
  (∀ s : State, s.pushedSp.toNat = ((s.regs[7]).toNat + 255) % 256) ∧
  (∀ (a : Byte) (s : State), 7 < a.toNat → exec (.push a) s = .next (faultedAs s .invalidRegister a.toNat)) ∧
  (∀ (r : Reg) (s : State), s.mem.size ≤ s.pushedSp.toNat →
    exec (.push (operandOf r)) s = .next (faultedAs s .outOfBounds s.pushedSp.toNat)) ∧
  ∀ (r : Reg) (s : State), s.mem.wf = true → s.pushedSp.toNat < s.mem.size →
    ∃ t, exec (.push (operandOf r)) s = .next t ∧
      StoredOnly s t s.pushedSp.toNat (if r = 7 then s.pushedSp else s.regs[r]) ∧
      t = { s with regs := s.regs.set 7 s.pushedSp, mem := t.mem, pc := s.pc + 2 }

/-- POP (R142): the encoding, the checks, and the effect. R[A] becomes the byte at SP and then R7 gains one modulo 256,
so POP R7 leaves that byte plus one (spec decision D18); memory and everything else is as before. The opcode byte is
spec decision D1. -/
def Obligations.PopLoadsFromTheStackPointer : Prop :=
  (∀ a : Byte, encode (.pop a) = [0x46, a]) ∧
  (∀ (a : Byte) (s : State), 7 < a.toNat → exec (.pop a) s = .next (faultedAs s .invalidRegister a.toNat)) ∧
  (∀ (r : Reg) (s : State), s.mem.size ≤ (s.regs[7]).toNat →
    exec (.pop (operandOf r)) s = .next (faultedAs s .outOfBounds (s.regs[7]).toNat)) ∧
  (∀ (r : Reg) (v : Byte) (s : State), r ≠ 7 → s.mem.read (s.regs[7]).toNat = some v →
    exec (.pop (operandOf r)) s =
      .next { s with
        regs := (s.regs.set r v).set 7 (BitVec.ofNat 8 (((s.regs[7]).toNat + 1) % 256)), pc := s.pc + 2 }) ∧
  ∀ (v : Byte) (s : State), s.mem.read (s.regs[7]).toNat = some v →
    exec (.pop (operandOf 7)) s =
      .next { s with regs := s.regs.set 7 (BitVec.ofNat 8 ((v.toNat + 1) % 256)), pc := s.pc + 2 }

/-- With N = 256 no stack access faults: every instruction with valid register operands completes, except a CALL whose
return address does not fit a byte (R140, R164). Spec decisions D15 and D25. -/
def Obligations.WellFormedInstructionsCompleteIn256Cells : Prop :=
  ∀ (i : Instr) (s : State), i.wellFormed = true → s.mem.size = 256 → s.status = .running →
    (∀ a, i = .call a → s.pc + 2 ≤ 255) → ∃ t, exec i s = .next t ∧ NotFaulted t

/-! ## Flow -/

/-- JMP (R161): the encoding, the register check, and the effect: pc alone changes, to the register's value. The opcode
byte is spec decision D1. -/
def Obligations.JmpSetsThePc : Prop :=
  (∀ a : Byte, encode (.jmp a) = [0x54, a]) ∧
  (∀ (a : Byte) (s : State), 7 < a.toNat → exec (.jmp a) s = .next (faultedAs s .invalidRegister a.toNat)) ∧
  ∀ (r : Reg) (s : State), exec (.jmp (operandOf r)) s = .next { s with pc := (s.regs[r]).toNat }

/-- JEQ (R162): the encoding, the register check whatever E is (spec decision D13), and the effect; and after a Compare
it branches if and only if that Compare found equal values. The opcode byte is spec decision D1. -/
def Obligations.JeqJumpsExactlyWhenEqual : Prop :=
  (∀ a : Byte, encode (.jeq a) = [0x55, a]) ∧
  (∀ (a : Byte) (s : State), 7 < a.toNat → exec (.jeq a) s = .next (faultedAs s .invalidRegister a.toNat)) ∧
  (∀ (r : Reg) (s : State), exec (.jeq (operandOf r)) s =
    .next { s with pc := if s.fl.E = true then (s.regs[r]).toNat else s.pc + 2 }) ∧
  ∀ (ra rb r : Reg) (s : State), ∃ t u, exec (.cmp (operandOf ra) (operandOf rb)) s = .next t ∧
    exec (.jeq (operandOf r)) t = .next u ∧
    u.pc = if s.regs[ra] = s.regs[rb] then (s.regs[r]).toNat else t.pc + 2

/-- JNE (R163): the encoding, the register check whatever E is (spec decision D13), and the effect; and after a Compare
it branches if and only if that Compare found different values. The opcode byte is spec decision D1. -/
def Obligations.JneJumpsExactlyWhenNotEqual : Prop :=
  (∀ a : Byte, encode (.jne a) = [0x56, a]) ∧
  (∀ (a : Byte) (s : State), 7 < a.toNat → exec (.jne a) s = .next (faultedAs s .invalidRegister a.toNat)) ∧
  (∀ (r : Reg) (s : State), exec (.jne (operandOf r)) s =
    .next { s with pc := if s.fl.E = false then (s.regs[r]).toNat else s.pc + 2 }) ∧
  ∀ (ra rb r : Reg) (s : State), ∃ t u, exec (.cmp (operandOf ra) (operandOf rb)) s = .next t ∧
    exec (.jne (operandOf r)) t = .next u ∧
    u.pc = if s.regs[ra] ≠ s.regs[rb] then (s.regs[r]).toNat else t.pc + 2

/-- CALL (R164): the encoding, the checks in their order, and the effect. SP becomes SP - 1 modulo 256, the byte at that
address becomes pc + 2, and pc becomes R[A], which for R7 is the decremented SP (spec decision D18). A return address
above 255 raises OutOfBounds (spec decision D15). Every other byte and field is as before. The opcode byte is spec
decision D1. -/
def Obligations.CallPushesTheReturnAddressAndJumps : Prop :=
  (∀ a : Byte, encode (.call a) = [0x50, a]) ∧
  (∀ (a : Byte) (s : State), 7 < a.toNat → exec (.call a) s = .next (faultedAs s .invalidRegister a.toNat)) ∧
  (∀ (r : Reg) (s : State), 255 < s.pc + 2 →
    exec (.call (operandOf r)) s = .next (faultedAs s .outOfBounds (s.pc + 2))) ∧
  (∀ (r : Reg) (s : State), s.pc + 2 ≤ 255 → s.mem.size ≤ s.pushedSp.toNat →
    exec (.call (operandOf r)) s = .next (faultedAs s .outOfBounds s.pushedSp.toNat)) ∧
  ∀ (r : Reg) (s : State), s.mem.wf = true → s.pc + 2 ≤ 255 → s.pushedSp.toNat < s.mem.size →
    ∃ t, exec (.call (operandOf r)) s = .next t ∧
      StoredOnly s t s.pushedSp.toNat (BitVec.ofNat 8 (s.pc + 2)) ∧
      t = { s with
        regs := s.regs.set 7 s.pushedSp, mem := t.mem,
        pc := (if r = 7 then s.pushedSp else s.regs[r]).toNat }

/-- RET (R165): the encoding, the check, and the effect: pc becomes the byte at SP, and SP gains one modulo 256; memory
and everything else is as before. The opcode byte is spec decision D1. -/
def Obligations.RetPopsThePc : Prop :=
  encode .ret = [0x11] ∧
  (∀ s : State, s.mem.size ≤ (s.regs[7]).toNat →
    exec .ret s = .next (faultedAs s .outOfBounds (s.regs[7]).toNat)) ∧
  ∀ (v : Byte) (s : State), s.mem.read (s.regs[7]).toNat = some v →
    exec .ret s =
      .next { s with
        regs := s.regs.set 7 (BitVec.ofNat 8 (((s.regs[7]).toNat + 1) % 256)), pc := v.toNat }

/-- The target of a jump, call or return that lies beyond memory is stored in pc without a fault, and the next cycle's
fetch raises OutOfBounds with it (R160, R183; possible only where N < 256): JMP, JEQ and JNE when they are taken, CALL, and
RET. The spec marks R160 as derived. The target of CALL R7 is spec decision D18, the bound on a return address D15, that
the fault changes nothing else D10. -/
def Obligations.TargetBeyondMemoryFaultsAtTheNextFetch : Prop :=
  ∀ s : State, s.status = .running →
    (∀ r : Reg, s.mem.size ≤ (s.regs[r]).toNat →
      FaultsAtTheFetchOf (s.regs[r]).toNat (.jmp (operandOf r)) s ∧
      (s.fl.E = true → FaultsAtTheFetchOf (s.regs[r]).toNat (.jeq (operandOf r)) s) ∧
      (s.fl.E = false → FaultsAtTheFetchOf (s.regs[r]).toNat (.jne (operandOf r)) s)) ∧
    (∀ r : Reg, s.mem.size ≤ (if r = 7 then s.pushedSp else s.regs[r]).toNat → s.pc + 2 ≤ 255 →
      s.pushedSp.toNat < s.mem.size →
      FaultsAtTheFetchOf (if r = 7 then s.pushedSp else s.regs[r]).toNat (.call (operandOf r)) s) ∧
    ∀ v : Byte, s.mem.read (s.regs[7]).toNat = some v → s.mem.size ≤ v.toNat → FaultsAtTheFetchOf v.toNat .ret s

/-! ## The stack discipline -/

/-- Balanced code restores the stack pointer and writes no byte but the `d` cells below it: for executed instructions in
which every push is matched by a pop and every call by a return, and nothing else writes R7 (the ground of R143 and
R166, which the spec derives from the instructions' rules). -/
def Obligations.BalancedCodeKeepsTheStack : Prop :=
  ∀ (d : Nat) (code : List Instr) (s t : State), Balanced d code → Executes code s t →
    t.sp = s.sp ∧ ∀ x, (∀ j, 1 ≤ j → j ≤ d → x ≠ (s.sp - BitVec.ofNat 8 j).toNat) → t.mem.read x = s.mem.read x

/-- Push and Pop are symmetric: a PUSH of any register but R7, then balanced code that holds at most 255 bytes on the
stack, then a POP into any register but R7, leaves there exactly the value that was pushed, and SP as it was before the
PUSH (R143, which the spec derives). -/
def Obligations.PopRestoresWhatTheMatchingPushStored : Prop :=
  ∀ (d : Nat) (x y : Reg) (body : List Instr) (s t : State), s.mem.wf = true → d ≤ 255 → x ≠ 7 → y ≠ 7 →
    Balanced d body → Executes (.push (operandOf x) :: (body ++ [.pop (operandOf y)])) s t →
    t.reg y = s.reg x ∧ t.sp = s.sp

/-- Call and Return are symmetric: after a CALL, balanced code that holds at most 255 bytes on the stack, and a RET, the
pc is the address after the CALL's two bytes and SP is as it was before the CALL (R166, which the spec derives). -/
def Obligations.ReturnGoesBackBehindTheMatchingCall : Prop :=
  ∀ (d : Nat) (a : Byte) (body : List Instr) (s t : State), s.mem.wf = true → d ≤ 255 → Balanced d body →
    Executes (.call a :: (body ++ [.ret])) s t → t.pc = s.pc + 2 ∧ t.sp = s.sp

/-! ## What no instruction does -/

/-- Registers change only where R25's table lists a write: the destination, and R7 for PUSH, POP, CALL and RET. -/
def Obligations.OnlyListedRegistersChange : Prop :=
  ∀ (i : Instr) (s t : State) (r : Reg), exec i s = .next t → ¬ WritesReg r i → t.reg r = s.reg r

/-- CMP alone writes FL; ADD, SUB and MUL in particular leave it (R29). -/
def Obligations.OnlyCompareWritesTheFlags : Prop :=
  ∀ (i : Instr) (s t : State), exec i s = .next t → (∀ a b, i ≠ .cmp a b) → t.fl = s.fl

/-- PUSH and CALL alone write memory, and only the byte at the new SP; every other byte, and the length, stay (R43). -/
def Obligations.OnlyPushAndCallWriteMemory : Prop :=
  ∀ (i : Instr) (s t : State), exec i s = .next t →
    t.mem.size = s.mem.size ∧ ∀ x, storeAddress s i ≠ some x → t.mem.read x = s.mem.read x

/-- The output log only grows, and only by PRN, by one byte (R30, R102). Spec decision D19. -/
def Obligations.OnlyPrnAppendsToTheOutput : Prop :=
  ∀ (i : Instr) (s t : State), exec i s = .next t →
    t.out = s.out ∨ ∃ a, i = .prn a ∧ t.out = s.out ++ [regAt s a]

/-- The CORE never reads the output log: a step does the same whatever bytes stand in front of it (R30). Spec decision
D19. -/
def Obligations.OutputIsNeverRead : Prop :=
  ∀ (s : State) (before : List Byte),
    step { s with out := before ++ s.out } = mapNext (fun t => { t with out := before ++ t.out }) (step s)

/-- No instruction reads L or G: two states that differ in L and G alone step to states that differ in L and G at most
(R29). -/
def Obligations.LessAndGreaterAreNeverRead : Prop :=
  ∀ s s' : State, eraseLG s = eraseLG s' → mapNext eraseLG (step s) = mapNext eraseLG (step s')

/-! ## Memory -/

/-- The memory port: read and write fail exactly when the address is not in [0, N), and an access that fails raises
OutOfBounds with the address and changes nothing else (R42; that nothing else changes is R184, spec decision D10). -/
def Obligations.MemoryPortFailsExactlyOutsideMemory : Prop :=
  (∀ (m : Memory) (a : Nat), m.read a = none ↔ m.size ≤ a) ∧
  (∀ (m : Memory) (a : Nat) (v : Byte), m.write a v = none ↔ m.size ≤ a) ∧
  ∀ (s : State) (a : Nat) (v : Byte) (read : Byte → Result) (write : Memory → Result), s.mem.size ≤ a →
    withRead a s read = .next (faultedAs s .outOfBounds a) ∧
    withWrite a v s write = .next (faultedAs s .outOfBounds a)

/-- A read of an address returns the latest write to it; where there is none, what the host load left there, or 0x00
where the load did not reach it (R49). -/
def Obligations.ReadReturnsTheLatestWrite : Prop :=
  ∀ (n : Nat) (img : List Byte) (s : State) (writes : List (Nat × Byte)) (a : Nat), 1 ≤ n → n ≤ 256 →
    (State.resetOfSize n).hostLoad img = .ok s → (∀ w ∈ writes, w.1 < n) → a < n →
    (storeAll s.mem writes).read a =
      some (match writes.reverse.find? fun w => w.1 == a with
        | some w => w.2
        | none => img.getD a 0)

/-- Equal memories are equal data: two memories in canonical form, of one length, that read the same everywhere are the
same (the model's representation of R40; log entry 7, DESIGN CHOICE). -/
def Obligations.CanonicalMemoriesAreDeterminedByReads : Prop :=
  ∀ m m' : Memory, m.wf = true → m'.wf = true → m.size = m'.size → (∀ a, m.read a = m'.read a) → m = m'

/-- Fetch sees a stack write at once: the cycle after a PUSH or a CALL fetches its opcode and its operands from memory
with the byte just stored in it, wherever that byte falls, and executes that instruction, or raises UnknownInstruction.
So a pushed opcode byte at the pc is the instruction executed next, and a CALL R7 executes its own return address (R50,
R209). Spec decisions D15, D17 and D18. -/
def Obligations.PushedOpcodeIsExecutedNext : Prop :=
  ∀ (r : Reg) (s : State), s.mem.wf = true → s.status = .running → s.pushedSp.toNat < s.mem.size →
    (∃ t, exec (.push (operandOf r)) s = .next t ∧ t.status = .running ∧ t.pc = s.pc + 2 ∧
      FetchesFrom t (withStored s s.pushedSp.toNat (if r = 7 then s.pushedSp else s.regs[r]))) ∧
    (s.pc + 2 ≤ 255 →
      ∃ t, exec (.call (operandOf r)) s = .next t ∧ t.status = .running ∧
        t.pc = (if r = 7 then s.pushedSp else s.regs[r]).toNat ∧
        FetchesFrom t (withStored s s.pushedSp.toNat (BitVec.ofNat 8 (s.pc + 2))))

/-! ## Invariants -/

/-- The state after reset meets the invariant, for every memory size the spec allows (R6, R37). -/
def Obligations.ResetMeetsTheInvariant : Prop :=
  State.reset.Inv ∧ ∀ n, 1 ≤ n → n ≤ 256 → (State.resetOfSize n).Inv

/-- Every step keeps the invariant: memory stays in its canonical form with an allowed length, pc stays at most 256 and
so fits its nine bits, at most one flag is set, and a fault record names pc and an info of at most 256 (R27, R29, R32,
R40). The bound on pc is log entry 3; spec decisions D8, D9 and D20. -/
def Obligations.StepKeepsTheInvariant : Prop :=
  ∀ s t : State, s.Inv → step s = .next t → t.Inv

/-- Along every run the invariant holds, memory keeps its length, and the output log only grows: what was emitted stays
(R30, R53, R92). -/
def Obligations.RunsKeepTheInvariantAndTheOutput : Prop :=
  ∀ (k : Nat) (s t : State), s.Inv → Reaches k s t → t.Inv ∧ t.mem.size = s.mem.size ∧ s.out <+: t.out

/-! ## Reset, load and the host's ports -/

/-- Reset leaves every piece of state at the value of R37: R0 to R6 zero, SP 0xF4, pc 0, FL clear, 256 zero cells, an
empty output log, RUNNING. Spec decisions D5 to D9 and D19. -/
def Obligations.ResetValues : Prop :=
  (∀ r : Reg, State.reset.reg r = if r = 7 then 0xF4 else 0x00) ∧
  State.reset.pc = 0 ∧ State.reset.fl = ⟨false, false, false⟩ ∧ State.reset.out = [] ∧
  State.reset.status = .running ∧ State.reset.mem.size = 256 ∧
  ∀ a, State.reset.mem.read a = if a < 256 then some 0x00 else none

/-- The host load writes `mem[i] <- img[i]` for each i < L, the cells from L to N-1 stay 0x00, and no register, flag,
pc or other field is written; after an empty image the run hits UnknownInstruction at address 0 with info 0x00
(R201, R202). -/
def Obligations.HostLoadPlacesTheImage : Prop :=
  (∀ (n : Nat) (img : List Byte), 1 ≤ n → n ≤ 256 → img.length ≤ n →
    ∃ t, (State.resetOfSize n).hostLoad img = .ok t ∧
      (∀ i (h : i < img.length), t.mem.read i = some img[i]) ∧
      (∀ i, img.length ≤ i → i < n → t.mem.read i = some 0x00) ∧
      t = { State.resetOfSize n with mem := t.mem } ∧ t.mem.size = n) ∧
  ∀ n, 1 ≤ n → n ≤ 256 →
    ∃ t, (State.resetOfSize n).hostLoad [] = .ok t ∧ step t = .next (faultedAs t .unknownInstruction 0x00) ∧ t.pc = 0

/-- The host refuses a load before the CORE starts: a missing file is ProgramNotFound; a file is refused when a retained
line holds anything but exactly eight binary digits, and when it has more than N retained lines; an image longer than
memory is refused (R198, R205). Spec decision D23. Two points are the model's choice, log entry 8: what counts as white
space, and that white space inside a retained line's token makes it malformed. Which of the two refusals is named where
both apply is log entry 8 too, and is left open here. -/
def Obligations.BadLoadsAreRefused : Prop :=
  (∀ n, boot n none = .error .programNotFound) ∧
  (∀ (n : Nat) (img : List Byte), n < img.length → (State.resetOfSize n).hostLoad img = .error .imageTooLong) ∧
  (∀ (n : Nat) (lines : List (List Char)) (line token : List Char), line ∈ lines → LineHolds token line →
    IsToken token → (token.length ≠ 8 ∨ ∃ c ∈ token, c ≠ '0' ∧ c ≠ '1') →
    (boot n (some lines) = .error .malformedToken ∨ boot n (some lines) = .error .imageTooLong) ∧
    (lines.length ≤ n → boot n (some lines) = .error .malformedToken)) ∧
  ∀ (n : Nat) (lines kept : List (List Char)), kept.Sublist lines →
    (∀ line ∈ kept, ∃ token, LineHolds token line ∧ IsToken token) → n < kept.length →
    boot n (some lines) = .error .malformedToken ∨ boot n (some lines) = .error .imageTooLong

/-- The Loader reads one byte per retained line, in order, and skips blank and comment-only lines, wherever they stand
(R203, R204). A retained line is eight binary digits, with or without a trailing comment; it puts its byte in front of
what the rest of the file gives, and the rest's refusal stays a refusal. A whole file of such lines gives their bytes, and
boot loads them. White space is log entry 8. -/
def Obligations.LoaderReadsOneBytePerLine : Prop :=
  parseLines [] = .ok [] ∧
  (∀ (v : Byte) (line : List Char) (rest : List (List Char)), LineHolds (binaryLine v) line →
    parseLines (line :: rest) = (parseLines rest).map fun img => v :: img) ∧
  (∀ (line : List Char) (rest : List (List Char)), LineHolds [] line → parseLines (line :: rest) = parseLines rest) ∧
  ∀ (n : Nat) (file : List (Option Byte × List Char)),
    (∀ l ∈ file, LineHolds (l.1.elim [] binaryLine) l.2) →
    parseLines (file.map fun l => l.2) = .ok (file.filterMap fun l => l.1) ∧
    boot n (some (file.map fun l => l.2)) = (State.resetOfSize n).hostLoad (file.filterMap fun l => l.1)

/-- The host resets the CORE only after the end of a run, and reset gives every field its reset value, whatever the run
left (R187, R200). Spec decision D24. -/
def Obligations.HostResetsOnlyAfterTheEnd : Prop :=
  ∀ s : State, (s.status = .running → s.hostReset = none) ∧
    (s.status = .halted → s.hostReset = some (State.resetOfSize s.mem.size)) ∧
    ∀ r, s.status = .faulted r → s.hostReset = some (State.resetOfSize s.mem.size)

/-- The status port, read after the end of a run and not before: the status codes, fpc and info in nine bits, FL as
`0b00000LGE`, R0 to R7, pc and memory (R193). Spec decisions D7 and D20; that a running CORE's port reads nothing is log
entry 10. -/
def Obligations.StatusPortShowsTheFinalState : Prop :=
  (∀ s : State, s.status = .running → s.statusPort = none) ∧
  (∀ s : State, s.status = .halted → ∃ p, s.statusPort = some p ∧ p.status = 1 ∧ p.fpc = none ∧ p.info = none) ∧
  (∀ (s : State) (r : FaultRecord), s.Inv → s.status = .faulted r →
    ∃ p fpc info, s.statusPort = some p ∧
      p.status = (match r.kind with | .unknownInstruction => 2 | .invalidRegister => 3 | .outOfBounds => 4) ∧
      p.fpc = some fpc ∧ fpc.toNat = r.fpc ∧ p.info = some info ∧ info.toNat = r.info) ∧
  ∀ (s : State) (p : StatusPort), s.Inv → s.statusPort = some p →
    p.regs = s.regs ∧ p.pc.toNat = s.pc ∧ p.mem = s.mem ∧
    p.fl.getLsbD 2 = s.fl.L ∧ p.fl.getLsbD 1 = s.fl.G ∧ p.fl.getLsbD 0 = s.fl.E ∧ p.fl.toNat < 8

/-- Exit code 0 on normal Halt; non-zero on ProgramNotFound, UnknownInstruction, InvalidRegister or OutOfBounds, whatever
the free values are, and the host tells the faults apart by the status code (R194). -/
def Obligations.ExitCodeIsZeroExactlyOnHalt : Prop :=
  RunStatus.halted.exitCode = some 0 ∧
  (∀ r : FaultRecord, ∃ n, (RunStatus.faulted r).exitCode = some n ∧ n ≠ 0) ∧
  LoadError.programNotFound.exitCode ≠ 0 ∧
  ∀ r r' : FaultRecord, r.kind ≠ r'.kind → (RunStatus.faulted r).code ≠ (RunStatus.faulted r').code

/-- Assembling the assembly line of a well-formed instruction gives it back (R73). Spec decision D21. -/
def Obligations.AssemblyRoundTrip : Prop :=
  ∀ i : Instr, i.wellFormed = true → assembleLine (renderInstr i) = some i

/-- The host acts before and after the run only: what it loads is a CORE as reset left it; once a step has been taken,
it can load nothing; and it neither resets nor reads a RUNNING CORE (R7, R193, R200, R201). Spec decision D24; how the
time before the first cycle is told from later is log entry 14. -/
def Obligations.HostActsOnlyBeforeAndAfterTheRun : Prop :=
  (∀ (s t : State) (img : List Byte), s.hostLoad img = .ok t → s = State.resetOfSize s.mem.size) ∧
  (∀ (s t : State) (img : List Byte), step s = .next t → t.hostLoad img = .error .notAtReset) ∧
  (∀ (k : Nat) (s t : State) (img : List Byte), Reaches (k + 1) s t → t.hostLoad img = .error .notAtReset) ∧
  ∀ s : State, s.status = .running → s.hostReset = none ∧ s.statusPort = none
end

