-- ==== Sys2Proof/Laws/Decode.lean ====
section
/-! SUPPORT. The decoder, by the number of operand bytes, and the opcode map read back. -/

namespace Sys2Proof

theorem decodeWith_of_some {op : Byte} {o : Opcode} (h : decodeOpcode op = some o) (a b : Byte) (rest : List Byte) :
    decodeWith op a b rest = .ok (o.build a b, rest) := by
  simp [decodeWith, h]

theorem decodeWith_of_none {op : Byte} (h : decodeOpcode op = none) (a b : Byte) (rest : List Byte) :
    decodeWith op a b rest = .error (.unknownInstruction op) := by
  simp [decodeWith, h]

/-- An opcode with no operand byte. -/
theorem decode_count0 {op : Byte} {o : Opcode} (hc : operandCount op = 0) (h : decodeOpcode op = some o)
    (rest : List Byte) : decode (op :: rest) = .ok (o.build 0 0, rest) := by
  simp [decode, hc, decodeWith_of_some h]

/-- An opcode with operand A alone. -/
theorem decode_count1 {op : Byte} {o : Opcode} (hc : operandCount op = 1) (h : decodeOpcode op = some o)
    (a : Byte) (rest : List Byte) : decode (op :: a :: rest) = .ok (o.build a 0, rest) := by
  simp [decode, hc, decodeWith_of_some h]

/-- An opcode with operands A and B. -/
theorem decode_count2 {op : Byte} {o : Opcode} (hc : operandCount op = 2) (h : decodeOpcode op = some o)
    (a b : Byte) (rest : List Byte) : decode (op :: a :: b :: rest) = .ok (o.build a b, rest) := by
  simp [decode, hc, decodeWith_of_some h]

/-- A found row is a row of the map, and its byte is the byte looked up (R65). -/
theorem decodeOpcode_row {op : Byte} {o : Opcode} (h : decodeOpcode op = some o) :
    ∃ row ∈ opcodeMap, row.byte = op ∧ row.op = o := by
  unfold decodeOpcode at h
  cases hf : opcodeMap.find? fun row => row.byte == op with
  | none => simp [hf] at h
  | some row =>
    rw [hf] at h
    exact ⟨row, List.mem_of_find?_eq_some hf, by simpa using List.find?_some hf, by simpa using h⟩

/-- Every row of the map, read back: the words of the operation's instruction are its byte and as many operand bytes as
the byte counts (R62, R64, R66). -/
theorem encode_build_of_row : ∀ row ∈ opcodeMap, ∀ a b : Byte,
    encode (row.op.build a b) = row.byte :: [a, b].take (operandCount row.byte) := by
  simp only [opcodeMap, List.forall_mem_cons]
  refine ⟨?_, ?_, ?_, ?_, ?_, ?_, ?_, ?_, ?_, ?_, ?_, ?_, ?_, ?_, by simp⟩ <;> exact fun _ _ => rfl

/-- The words of the instruction that an opcode byte and its operand bytes build. -/
theorem encode_build {op : Byte} {o : Opcode} (h : decodeOpcode op = some o) (a b : Byte) :
    encode (o.build a b) = op :: [a, b].take (operandCount op) := by
  obtain ⟨row, hrow, rfl, rfl⟩ := decodeOpcode_row h
  exact encode_build_of_row row hrow a b

/-- An instruction's opcode counts 0, 1 or 2 operand bytes, never 3 (R61, R68). -/
theorem operandCount_le_of_some {op : Byte} {o : Opcode} (h : decodeOpcode op = some o) : operandCount op ≤ 2 := by
  obtain ⟨row, hrow, rfl, -⟩ := decodeOpcode_row h
  have all : ∀ row ∈ opcodeMap, operandCount row.byte ≤ 2 := by decide
  exact all row hrow

theorem length_build {op : Byte} {o : Opcode} (h : decodeOpcode op = some o) (a b : Byte) :
    (o.build a b).length = 1 + operandCount op := by
  have := operandCount_le_of_some h
  simp [Instr.length, encode_build h, this]
  omega

end Sys2Proof
end

