-- ==== Sys2Proof/Laws/Memory.lean ====
section
/-! SUPPORT. The laws of the memory port: a read after a write, the length, and the canonical form that every memory
operation keeps (R41, R42, R49; log entry 7). -/

namespace Sys2Proof.Machine

/-! ## Cells -/

theorem cellsGet_cons_same (a : Nat) (v : Byte) (rest : List Host.Cell) (h : cellsGet rest a = 0) :
    cellsGet (cellsCons a v rest) a = v := by
  unfold cellsCons
  split
  · next hv => rw [h, hv]
  · simp [cellsGet]

theorem cellsGet_cons_other {a b : Nat} (v : Byte) (rest : List Host.Cell) (h : b ≠ a) :
    cellsGet (cellsCons a v rest) b = cellsGet rest b := by
  unfold cellsCons
  split
  · rfl
  · simp [cellsGet, h]

theorem cellsWf_cons_iff (lo hi a : Nat) (v : Byte) (rest : List Host.Cell) :
    cellsWf lo hi ((a, v) :: rest) = true ↔ lo ≤ a ∧ a < hi ∧ v ≠ 0 ∧ cellsWf (a + 1) hi rest = true := by
  simp only [cellsWf, Bool.and_eq_true, decide_eq_true_eq, and_assoc]

/-- No cell is listed below the lowest address of a canonical list. -/
theorem cellsGet_below {lo hi : Nat} {cells : List Host.Cell} (h : cellsWf lo hi cells = true) {a : Nat} (ha : a < lo) :
    cellsGet cells a = 0 := by
  induction cells generalizing lo with
  | nil => rfl
  | cons c rest ih =>
    obtain ⟨b, w⟩ := c
    obtain ⟨hlo, -, -, hrest⟩ := (cellsWf_cons_iff ..).1 h
    simp only [cellsGet, if_neg (show a ≠ b by omega)]
    exact ih hrest (by omega)

theorem cellsWf_mono {lo lo' hi : Nat} {cells : List Host.Cell} (h : cellsWf lo hi cells = true) (hle : lo' ≤ lo) :
    cellsWf lo' hi cells = true := by
  cases cells with
  | nil => rfl
  | cons c rest =>
    obtain ⟨b, w⟩ := c
    obtain ⟨hb, h⟩ := (cellsWf_cons_iff ..).1 h
    exact (cellsWf_cons_iff ..).2 ⟨by omega, h⟩

theorem cellsWf_cons {lo hi a : Nat} {v : Byte} {rest : List Host.Cell} (hlo : lo ≤ a) (hhi : a < hi)
    (h : cellsWf (a + 1) hi rest = true) : cellsWf lo hi (cellsCons a v rest) = true := by
  unfold cellsCons
  split
  · exact cellsWf_mono h (by omega)
  · next hv => exact (cellsWf_cons_iff ..).2 ⟨hlo, hhi, hv, h⟩

theorem cellsSet_wf {lo hi a : Nat} {v : Byte} {cells : List Host.Cell} (hlo : lo ≤ a) (hhi : a < hi)
    (h : cellsWf lo hi cells = true) : cellsWf lo hi (cellsSet a v cells) = true := by
  induction cells generalizing lo with
  | nil => exact cellsWf_cons hlo hhi rfl
  | cons c rest ih =>
    obtain ⟨b, w⟩ := c
    obtain ⟨hb, hbhi, hw, hrest⟩ := (cellsWf_cons_iff ..).1 h
    simp only [cellsSet]
    split
    · next hab =>
      refine cellsWf_cons hlo hhi ?_
      exact (cellsWf_cons_iff ..).2 ⟨by omega, hbhi, hw, hrest⟩
    · split
      · next hab => subst hab; exact cellsWf_cons hlo hhi hrest
      · next h1 h2 =>
        exact (cellsWf_cons_iff ..).2 ⟨hb, hbhi, hw, ih (by omega) hrest⟩

/-- The byte at the written address, in a canonical list. -/
theorem cellsGet_set_same {lo hi a : Nat} {v : Byte} {cells : List Host.Cell} (h : cellsWf lo hi cells = true) :
    cellsGet (cellsSet a v cells) a = v := by
  induction cells generalizing lo with
  | nil => exact cellsGet_cons_same a v [] rfl
  | cons c rest ih =>
    obtain ⟨b, w⟩ := c
    obtain ⟨-, -, -, hrest⟩ := (cellsWf_cons_iff ..).1 h
    simp only [cellsSet]
    split
    · next hab =>
      refine cellsGet_cons_same a v _ ?_
      simp only [cellsGet, if_neg (show a ≠ b by omega)]
      exact cellsGet_below hrest (by omega)
    · split
      · next hab => exact cellsGet_cons_same a v _ (cellsGet_below hrest (by omega))
      · next h1 h2 => simp only [cellsGet, if_neg h2]; exact ih hrest

/-- The bytes at the other addresses. -/
theorem cellsGet_set_other {a b : Nat} (v : Byte) (cells : List Host.Cell) (hne : b ≠ a) :
    cellsGet (cellsSet a v cells) b = cellsGet cells b := by
  induction cells with
  | nil => exact cellsGet_cons_other v [] hne
  | cons c rest ih =>
    obtain ⟨d, w⟩ := c
    simp only [cellsSet]
    split
    · exact cellsGet_cons_other v _ hne
    · split
      · next hd => subst hd; rw [cellsGet_cons_other v _ hne]; simp [cellsGet, hne]
      · simp only [cellsGet, ih]

/-! ## Memory -/

theorem Memory.wf_iff (m : Memory) :
    m.wf = true ↔ 1 ≤ m.size ∧ m.size ≤ 256 ∧ cellsWf 0 m.size m.cells = true := by
  simp only [Memory.wf, Bool.and_eq_true, decide_eq_true_eq, and_assoc]
  exact Iff.rfl

/-- A read inside memory answers a byte. -/
theorem Memory.read_of_lt {m : Memory} {a : Nat} (h : a < m.size) : m.read a = some (cellsGet m.cells a) := by
  simp [Memory.read, h]

/-- A read outside memory fails (R42). -/
theorem Memory.read_of_ge {m : Memory} {a : Nat} (h : m.size ≤ a) : m.read a = none := by
  simp [Memory.read, Nat.not_lt.mpr h]

theorem Memory.lt_of_read {m : Memory} {a : Nat} {v : Byte} (h : m.read a = some v) : a < m.size := by
  by_contra hc
  rw [Memory.read_of_ge (Nat.not_lt.mp hc)] at h
  cases h

/-- A write inside memory succeeds. -/
theorem Memory.write_of_lt {m : Memory} {a : Nat} (v : Byte) (h : a < m.size) :
    m.write a v = some { m with cells := cellsSet a v m.cells } := by
  simp [Memory.write, h]

/-- A write outside memory fails (R42). -/
theorem Memory.write_of_ge {m : Memory} {a : Nat} (v : Byte) (h : m.size ≤ a) : m.write a v = none := by
  simp [Memory.write, Nat.not_lt.mpr h]

/-- Everything a successful write says about its answer. -/
theorem Memory.write_cases {m m' : Memory} {a : Nat} {v : Byte} (h : m.write a v = some m') :
    a < m.size ∧ m' = { m with cells := cellsSet a v m.cells } := by
  unfold Memory.write at h
  split at h
  · next ha => exact ⟨ha, (Option.some.inj h).symm⟩
  · cases h

theorem Memory.write_size {m m' : Memory} {a : Nat} {v : Byte} (h : m.write a v = some m') : m'.size = m.size := by
  rw [(Memory.write_cases h).2]

/-- A write leaves every other address alone. -/
theorem Memory.read_write_other {m m' : Memory} {a b : Nat} {v : Byte} (h : m.write a v = some m') (hne : b ≠ a) :
    m'.read b = m.read b := by
  obtain ⟨-, rfl⟩ := Memory.write_cases h
  simp [Memory.read, cellsGet_set_other v m.cells hne]

/-- A read after a write to the same address gives the value written. -/
theorem Memory.read_write_same {m m' : Memory} {a : Nat} {v : Byte} (hwf : m.wf = true) (h : m.write a v = some m') :
    m'.read a = some v := by
  obtain ⟨ha, rfl⟩ := Memory.write_cases h
  simp [Memory.read, ha, cellsGet_set_same ((Memory.wf_iff m).1 hwf).2.2]

/-- A write keeps the canonical form. -/
theorem Memory.write_wf {m m' : Memory} {a : Nat} {v : Byte} (hwf : m.wf = true) (h : m.write a v = some m') :
    m'.wf = true := by
  obtain ⟨ha, rfl⟩ := Memory.write_cases h
  rw [Memory.wf_iff] at hwf ⊢
  exact ⟨hwf.1, hwf.2.1, cellsSet_wf (Nat.zero_le _) ha hwf.2.2⟩

theorem Memory.getD_write_wf {m : Memory} (a : Nat) (v : Byte) (hwf : m.wf = true) :
    ((m.write a v).getD m).wf = true := by
  cases h : m.write a v with
  | none => simpa using hwf
  | some m' => simpa using Memory.write_wf hwf h

theorem Memory.getD_write_size (m : Memory) (a : Nat) (v : Byte) : ((m.write a v).getD m).size = m.size := by
  cases h : m.write a v with
  | none => rfl
  | some m' => simpa using Memory.write_size h

/-- Placing bytes keeps the canonical form. -/
theorem Memory.place_wf {m : Memory} (bytes : List Byte) (a : Nat) (hwf : m.wf = true) : (m.place a bytes).wf = true := by
  induction bytes generalizing m a with
  | nil => exact hwf
  | cons v rest ih => exact ih (a + 1) (Memory.getD_write_wf a v hwf)

theorem Memory.place_size (m : Memory) (bytes : List Byte) (a : Nat) : (m.place a bytes).size = m.size := by
  induction bytes generalizing m a with
  | nil => rfl
  | cons v rest ih => simp only [Memory.place, ih, Memory.getD_write_size]

/-- Placing bytes from `a` on leaves the addresses below `a` alone. -/
theorem Memory.read_place_below (m : Memory) (bytes : List Byte) {a b : Nat} (h : b < a) :
    (m.place a bytes).read b = m.read b := by
  induction bytes generalizing m a with
  | nil => rfl
  | cons v rest ih =>
    simp only [Memory.place]
    rw [ih _ (by omega)]
    cases hw : m.write a v with
    | none => rfl
    | some m' => simpa using Memory.read_write_other hw (show b ≠ a by omega)

/-- Placing bytes leaves the addresses behind them alone. -/
theorem Memory.read_place_above (m : Memory) (bytes : List Byte) {a b : Nat} (h : a + bytes.length ≤ b) :
    (m.place a bytes).read b = m.read b := by
  induction bytes generalizing m a with
  | nil => rfl
  | cons v rest ih =>
    simp only [Memory.place, List.length_cons] at h ⊢
    rw [ih _ (by omega)]
    cases hw : m.write a v with
    | none => rfl
    | some m' => simpa using Memory.read_write_other hw (show b ≠ a by omega)

/-- Placed bytes are read back, when they all fit (R202). -/
theorem Memory.read_place {m : Memory} {a : Nat} {bytes : List Byte} (hwf : m.wf = true)
    (hl : a + bytes.length ≤ m.size) (i : Nat) (hi : i < bytes.length) :
    (m.place a bytes).read (a + i) = some bytes[i] := by
  induction bytes generalizing m a i with
  | nil => simp at hi
  | cons v rest ih =>
    simp only [Memory.place, List.length_cons] at hl hi ⊢
    have hm := Memory.write_of_lt v (show a < m.size by omega)
    rw [hm, Option.getD_some]
    cases i with
    | zero =>
      rw [Nat.add_zero, Memory.read_place_below _ _ (by omega)]
      exact Memory.read_write_same hwf hm
    | succ i =>
      have := ih (Memory.write_wf hwf hm) (show a + 1 + rest.length ≤ m.size by omega) i (by omega)
      rw [show a + (i + 1) = a + 1 + i by omega]
      simpa using this

/-- An empty memory of an allowed length is canonical. -/
theorem Memory.wf_empty {n : Nat} (h1 : 1 ≤ n) (h2 : n ≤ 256) : (Memory.mk n []).wf = true := by
  rw [Memory.wf_iff]
  exact ⟨h1, h2, rfl⟩

end Sys2Proof.Machine
end

