-- ==== Sys2Proof/Laws/State.lean ====
section
/-! SUPPORT. What every update of the state leaves in every field, and the register reads after each. -/

namespace Sys2Proof.Machine

variable (s : State)

@[simp] theorem State.setReg_regs (r : Reg) (v : Byte) : (s.setReg r v).regs = s.regs.set r v := rfl
@[simp] theorem State.setReg_pc (r : Reg) (v : Byte) : (s.setReg r v).pc = s.pc := rfl
@[simp] theorem State.setReg_fl (r : Reg) (v : Byte) : (s.setReg r v).fl = s.fl := rfl
@[simp] theorem State.setReg_mem (r : Reg) (v : Byte) : (s.setReg r v).mem = s.mem := rfl
@[simp] theorem State.setReg_out (r : Reg) (v : Byte) : (s.setReg r v).out = s.out := rfl
@[simp] theorem State.setReg_status (r : Reg) (v : Byte) : (s.setReg r v).status = s.status := rfl

@[simp] theorem State.setFlags_regs (f : Flags) : (s.setFlags f).regs = s.regs := rfl
@[simp] theorem State.setFlags_pc (f : Flags) : (s.setFlags f).pc = s.pc := rfl
@[simp] theorem State.setFlags_fl (f : Flags) : (s.setFlags f).fl = f := rfl
@[simp] theorem State.setFlags_mem (f : Flags) : (s.setFlags f).mem = s.mem := rfl
@[simp] theorem State.setFlags_out (f : Flags) : (s.setFlags f).out = s.out := rfl
@[simp] theorem State.setFlags_status (f : Flags) : (s.setFlags f).status = s.status := rfl

@[simp] theorem State.setMem_regs (m : Memory) : (s.setMem m).regs = s.regs := rfl
@[simp] theorem State.setMem_pc (m : Memory) : (s.setMem m).pc = s.pc := rfl
@[simp] theorem State.setMem_fl (m : Memory) : (s.setMem m).fl = s.fl := rfl
@[simp] theorem State.setMem_mem (m : Memory) : (s.setMem m).mem = m := rfl
@[simp] theorem State.setMem_out (m : Memory) : (s.setMem m).out = s.out := rfl
@[simp] theorem State.setMem_status (m : Memory) : (s.setMem m).status = s.status := rfl

@[simp] theorem State.emit_regs (v : Byte) : (s.emit v).regs = s.regs := rfl
@[simp] theorem State.emit_pc (v : Byte) : (s.emit v).pc = s.pc := rfl
@[simp] theorem State.emit_fl (v : Byte) : (s.emit v).fl = s.fl := rfl
@[simp] theorem State.emit_mem (v : Byte) : (s.emit v).mem = s.mem := rfl
@[simp] theorem State.emit_out (v : Byte) : (s.emit v).out = s.out ++ [v] := rfl
@[simp] theorem State.emit_status (v : Byte) : (s.emit v).status = s.status := rfl

@[simp] theorem State.halt_regs : (s.halt).regs = s.regs := rfl
@[simp] theorem State.halt_pc : (s.halt).pc = s.pc := rfl
@[simp] theorem State.halt_fl : (s.halt).fl = s.fl := rfl
@[simp] theorem State.halt_mem : (s.halt).mem = s.mem := rfl
@[simp] theorem State.halt_out : (s.halt).out = s.out := rfl
@[simp] theorem State.halt_status : (s.halt).status = .halted := rfl

@[simp] theorem State.setPc_regs (t : Nat) : (s.setPc t).regs = s.regs := rfl
@[simp] theorem State.setPc_pc (t : Nat) : (s.setPc t).pc = t := rfl
@[simp] theorem State.setPc_fl (t : Nat) : (s.setPc t).fl = s.fl := rfl
@[simp] theorem State.setPc_mem (t : Nat) : (s.setPc t).mem = s.mem := rfl
@[simp] theorem State.setPc_out (t : Nat) : (s.setPc t).out = s.out := rfl
@[simp] theorem State.setPc_status (t : Nat) : (s.setPc t).status = s.status := rfl

@[simp] theorem State.takeFault_regs (k : FaultKind) (n : Nat) : (s.takeFault k n).regs = s.regs := rfl
@[simp] theorem State.takeFault_pc (k : FaultKind) (n : Nat) : (s.takeFault k n).pc = s.pc := rfl
@[simp] theorem State.takeFault_fl (k : FaultKind) (n : Nat) : (s.takeFault k n).fl = s.fl := rfl
@[simp] theorem State.takeFault_mem (k : FaultKind) (n : Nat) : (s.takeFault k n).mem = s.mem := rfl
@[simp] theorem State.takeFault_out (k : FaultKind) (n : Nat) : (s.takeFault k n).out = s.out := rfl
@[simp] theorem State.takeFault_status (k : FaultKind) (n : Nat) : (s.takeFault k n).status = .faulted ⟨k, s.pc, n⟩ := rfl

@[simp] theorem State.setFlags_reg (f : Flags) (r : Reg) : (s.setFlags f).reg r = s.reg r := rfl
@[simp] theorem State.setMem_reg (m : Memory) (r : Reg) : (s.setMem m).reg r = s.reg r := rfl
@[simp] theorem State.emit_reg (v : Byte) (r : Reg) : (s.emit v).reg r = s.reg r := rfl
@[simp] theorem State.halt_reg (r : Reg) : (s.halt).reg r = s.reg r := rfl
@[simp] theorem State.setPc_reg (t : Nat) (r : Reg) : (s.setPc t).reg r = s.reg r := rfl
@[simp] theorem State.takeFault_reg (k : FaultKind) (n : Nat) (r : Reg) : (s.takeFault k n).reg r = s.reg r := rfl

/-- The written register holds the value (R9, R24). -/
@[simp] theorem State.setReg_reg_same (r : Reg) (v : Byte) : (s.setReg r v).reg r = v := by
  simp [State.reg, State.setReg]

/-- Every other register keeps its value. -/
theorem State.setReg_reg_other {r q : Reg} (v : Byte) (h : q ≠ r) : (s.setReg r v).reg q = s.reg q := by
  have h' : r.val ≠ q.val := fun e => h (Fin.ext e.symm)
  simp [State.reg, State.setReg, h']

/-- Both cases of a register read after a register write. -/
theorem State.setReg_reg (r q : Reg) (v : Byte) : (s.setReg r v).reg q = if q = r then v else s.reg q := by
  by_cases h : q = r
  · subst h; simp
  · simp [h, State.setReg_reg_other s v h]

@[simp] theorem State.setSp_eq_setReg (v : Byte) : s.setSp v = s.setReg Config.spIndex v := rfl

/-- SP after any register write: only a write to R7 is a write to SP (R22). -/
theorem State.setReg_sp (r : Reg) (v : Byte) : (s.setReg r v).sp = if r = Config.spIndex then v else s.sp := by
  simp [State.sp, State.setReg_reg, eq_comm]

end Sys2Proof.Machine
end

