-- ==== Sys2Proof/Laws/Ops.lean ====
section
/-! SUPPORT. One lemma per shared operation: everything it can do. -/

namespace Sys2Proof.Machine

/-! ## Operands -/

theorem operandOf_toNat (r : Reg) : (operandOf r).toNat = r.val := by
  simp only [operandOf, BitVec.toNat_ofNat]
  omega

theorem operandOf_lt (r : Reg) : (operandOf r).toNat < 8 := by
  rw [operandOf_toNat]
  exact r.isLt

theorem operandOf_injective {r q : Reg} (h : operandOf r = operandOf q) : r = q := by
  have := congrArg BitVec.toNat h
  rw [operandOf_toNat, operandOf_toNat] at this
  exact Fin.ext this

theorem eq_operandOf {v : Byte} (h : v.toNat < 8) : v = operandOf ⟨v.toNat, h⟩ := by
  apply BitVec.eq_of_toNat_eq
  rw [operandOf_toNat]

@[simp] theorem validReg_operandOf (r : Reg) : validReg (operandOf r) = true := by
  simp [validReg, operandOf_lt]

@[simp] theorem regOf_operandOf (r : Reg) : regOf (operandOf r) = some r := by
  simp [regOf, operandOf_toNat]

theorem regOf_of_ge {v : Byte} (h : 7 < v.toNat) : regOf v = none := by
  simp [regOf, show ¬ v.toNat < 8 by omega]

@[simp] theorem withReg_operandOf (r : Reg) (s : State) (k : Reg → Result) : withReg (operandOf r) s k = k r := by
  simp [withReg]

theorem withReg_of_ge {v : Byte} (h : 7 < v.toNat) (s : State) (k : Reg → Result) :
    withReg v s k = raise .invalidRegister v.toNat s := by
  simp [withReg, regOf_of_ge h]

/-- An operand byte names a register and the instruction goes on with it, or it is above 7 and InvalidRegister is
raised (R86). -/
theorem withReg_cases (v : Byte) (s : State) (k : Reg → Result) :
    (∃ r, v = operandOf r ∧ withReg v s k = k r) ∨
    (7 < v.toNat ∧ withReg v s k = raise .invalidRegister v.toNat s) := by
  by_cases h : v.toNat < 8
  · refine .inl ⟨⟨v.toNat, h⟩, eq_operandOf h, ?_⟩
    conv_lhs => rw [eq_operandOf h]
    exact withReg_operandOf _ s k
  · exact .inr ⟨by omega, withReg_of_ge (by omega) s k⟩

/-- The same for two operands: A is checked first (R86). -/
theorem withRegs_cases (a b : Byte) (s : State) (k : Reg → Reg → Result) :
    (∃ ra rb, a = operandOf ra ∧ b = operandOf rb ∧ withRegs a b s k = k ra rb) ∨
    (7 < a.toNat ∧ withRegs a b s k = raise .invalidRegister a.toNat s) ∨
    (a.toNat < 8 ∧ 7 < b.toNat ∧ withRegs a b s k = raise .invalidRegister b.toNat s) := by
  unfold withRegs
  obtain ⟨ra, rfl, h⟩ | ⟨ha, h⟩ := withReg_cases a s fun ra => withReg b s fun rb => k ra rb
  · obtain ⟨rb, rfl, h'⟩ | ⟨hb, h'⟩ := withReg_cases b s fun rb => k ra rb
    · exact .inl ⟨ra, rb, rfl, rfl, h.trans h'⟩
    · exact .inr (.inr ⟨operandOf_lt ra, hb, h.trans h'⟩)
  · exact .inr (.inl ⟨ha, h⟩)

@[simp] theorem withRegs_operandOf (ra rb : Reg) (s : State) (k : Reg → Reg → Result) :
    withRegs (operandOf ra) (operandOf rb) s k = k ra rb := by
  simp [withRegs]

/-! ## Memory accesses -/

theorem withRead_of_some {a : Nat} {s : State} {v : Byte} (h : s.mem.read a = some v) (k : Byte → Result) :
    withRead a s k = k v := by
  simp [withRead, h]

theorem withRead_of_ge {a : Nat} {s : State} (h : s.mem.size ≤ a) (k : Byte → Result) :
    withRead a s k = raise .outOfBounds a s := by
  simp [withRead, Memory.read_of_ge h]

/-- A read goes on with the byte, or raises OutOfBounds (R42). -/
theorem withRead_cases (a : Nat) (s : State) (k : Byte → Result) :
    (∃ v, s.mem.read a = some v ∧ a < s.mem.size ∧ withRead a s k = k v) ∨
    (s.mem.size ≤ a ∧ withRead a s k = raise .outOfBounds a s) := by
  by_cases h : a < s.mem.size
  · exact .inl ⟨_, Memory.read_of_lt h, h, withRead_of_some (Memory.read_of_lt h) k⟩
  · exact .inr ⟨by omega, withRead_of_ge (by omega) k⟩

theorem withWrite_of_some {a : Nat} {v : Byte} {s : State} {m : Memory} (h : s.mem.write a v = some m)
    (k : Memory → Result) : withWrite a v s k = k m := by
  simp [withWrite, h]

theorem withWrite_of_ge {a : Nat} {s : State} (h : s.mem.size ≤ a) (v : Byte) (k : Memory → Result) :
    withWrite a v s k = raise .outOfBounds a s := by
  simp [withWrite, Memory.write_of_ge v h]

/-- A write goes on with the written memory, or raises OutOfBounds in the state it started from (R42, R184). -/
theorem withWrite_cases (a : Nat) (v : Byte) (s : State) (k : Memory → Result) :
    (∃ m, s.mem.write a v = some m ∧ a < s.mem.size ∧ withWrite a v s k = k m) ∨
    (s.mem.size ≤ a ∧ withWrite a v s k = raise .outOfBounds a s) := by
  by_cases h : a < s.mem.size
  · exact .inl ⟨_, Memory.write_of_lt v h, h, withWrite_of_some (Memory.write_of_lt v h) k⟩
  · exact .inr ⟨by omega, withWrite_of_ge (by omega) v k⟩

/-! ## Arithmetic and flags, as numbers -/

/-- SP - 1 modulo 256 (R23). -/
theorem pushedSp_toNat (s : State) : s.pushedSp.toNat = (s.sp.toNat + 255) % 256 := by
  simp [State.pushedSp, BitVec.toNat_sub, Nat.add_comm]

/-- SP + 1 modulo 256 (R23). -/
theorem poppedSp_toNat (s : State) : s.poppedSp.toNat = (s.sp.toNat + 1) % 256 := by
  simp [State.poppedSp, BitVec.toNat_add]

/-- R120 for Add. -/
theorem aluAdd_toNat (x y : Byte) : (aluAdd x y).toNat = (x.toNat + y.toNat) % 256 := by
  simp [aluAdd, BitVec.toNat_add]

/-- R120 for Subtract, without a negative number. -/
theorem aluSub_toNat (x y : Byte) : (aluSub x y).toNat = (x.toNat + (256 - y.toNat)) % 256 := by
  simp only [aluSub, BitVec.toNat_sub]
  congr 1
  omega

/-- R120 for Multiply. -/
theorem aluMul_toNat (x y : Byte) : (aluMul x y).toNat = (x.toNat * y.toNat) % 256 := by
  simp [aluMul, BitVec.toNat_mul]

theorem compareFlags_L (x y : Byte) : (compareFlags x y).L = true ↔ x.toNat < y.toNat := decide_eq_true_iff

theorem compareFlags_G (x y : Byte) : (compareFlags x y).G = true ↔ y.toNat < x.toNat := decide_eq_true_iff

theorem compareFlags_E (x y : Byte) : (compareFlags x y).E = true ↔ x = y := by
  rw [← BitVec.toNat_inj]
  exact decide_eq_true_iff

/-- The three outcomes of a Compare, and the flag each sets (R125). -/
theorem compareFlags_cases (x y : Byte) :
    (x.toNat < y.toNat ∧ compareFlags x y = ⟨true, false, false⟩) ∨
    (y.toNat < x.toNat ∧ compareFlags x y = ⟨false, true, false⟩) ∨
    (x = y ∧ compareFlags x y = ⟨false, false, true⟩) := by
  rcases Nat.lt_trichotomy x.toNat y.toNat with h | h | h
  · exact .inl ⟨h, by simp [compareFlags, h, Nat.not_lt.mpr h.le, h.ne]⟩
  · exact .inr (.inr ⟨BitVec.eq_of_toNat_eq h, by simp [compareFlags, h]⟩)
  · exact .inr (.inl ⟨h, by simp [compareFlags, h, Nat.not_lt.mpr h.le, h.ne']⟩)

/-- Compare sets exactly one flag (R125). -/
theorem compareFlags_exactlyOne (x y : Byte) : (compareFlags x y).exactlyOne = true := by
  obtain ⟨-, e⟩ | ⟨-, e⟩ | ⟨-, e⟩ := compareFlags_cases x y <;> rw [e] <;> rfl

theorem compareFlags_atMostOne (x y : Byte) : (compareFlags x y).atMostOne = true := by
  have h := compareFlags_exactlyOne x y
  simp only [Flags.exactlyOne, Bool.and_eq_true] at h
  exact h.1

end Sys2Proof.Machine
end

