-- ==== Sys2Proof/Laws/Exec.lean ====
section
/-! SUPPORT. What each meaning can do: it raises a fault in the state it started from, or it completes in the state
its rule gives. Proofs about `exec` cite these and do not unfold the meanings. -/

namespace Sys2Proof.Machine

/-- `r` is a fault raised in `s` by an instruction of `len` bytes (R184); its info is a byte, or the address behind the
instruction (CALL's return address). -/
def Raises (len : Nat) (s : State) (r : Result) : Prop :=
  ∃ kind info, (info ≤ 255 ∨ info = s.pc + len) ∧ r = raise kind info s

theorem raises_byte {len : Nat} {kind : FaultKind} {v : Byte} {s : State} {r : Result} (h : r = raise kind v.toNat s) :
    Raises len s r :=
  ⟨kind, v.toNat, .inl (by have := v.isLt; omega), h⟩

/-- A raised fault changes the run status alone. -/
theorem Raises.eq_takeFault {len : Nat} {s t : State} (h : Raises len s (.next t)) :
    ∃ kind info, (info ≤ 255 ∨ info = s.pc + len) ∧ t = s.takeFault kind info := by
  obtain ⟨kind, info, hi, h⟩ := h
  exact ⟨kind, info, hi, by injection h⟩

theorem exec_hlt_eq (s : State) : exec .hlt s = .next (s.halt.setPc (s.pc + 1)) := rfl

theorem exec_ldi_cases (a imm : Byte) (s : State) :
    (∃ r, a = operandOf r ∧ exec (.ldi a imm) s = .next ((s.setReg r imm).setPc (s.pc + 3))) ∨
    Raises 3 s (exec (.ldi a imm) s) := by
  obtain ⟨r, h, e⟩ | ⟨-, e⟩ := withReg_cases a s fun r => finish 3 .advance (s.setReg r imm)
  · exact .inl ⟨r, h, e⟩
  · exact .inr (raises_byte e)

theorem exec_prn_cases (a : Byte) (s : State) :
    (∃ r, a = operandOf r ∧ exec (.prn a) s = .next ((s.emit (s.reg r)).setPc (s.pc + 2))) ∨
    Raises 2 s (exec (.prn a) s) := by
  obtain ⟨r, h, e⟩ | ⟨-, e⟩ := withReg_cases a s fun r => finish 2 .advance (s.emit (s.reg r))
  · exact .inl ⟨r, h, e⟩
  · exact .inr (raises_byte e)

theorem execArith_cases (f : Byte → Byte → Byte) (a b : Byte) (s : State) :
    (∃ ra rb, a = operandOf ra ∧ b = operandOf rb ∧
      execArith f a b s = .next ((s.setReg ra (f (s.reg ra) (s.reg rb))).setPc (s.pc + 3))) ∨
    Raises 3 s (execArith f a b s) := by
  obtain ⟨ra, rb, ha, hb, e⟩ | ⟨-, e⟩ | ⟨-, -, e⟩ :=
    withRegs_cases a b s fun ra rb => finish 3 .advance (s.setReg ra (f (s.reg ra) (s.reg rb)))
  · exact .inl ⟨ra, rb, ha, hb, e⟩
  · exact .inr (raises_byte e)
  · exact .inr (raises_byte e)

theorem exec_add_cases (a b : Byte) (s : State) :
    (∃ ra rb, a = operandOf ra ∧ b = operandOf rb ∧
      exec (.add a b) s = .next ((s.setReg ra (aluAdd (s.reg ra) (s.reg rb))).setPc (s.pc + 3))) ∨
    Raises 3 s (exec (.add a b) s) := execArith_cases aluAdd a b s

theorem exec_sub_cases (a b : Byte) (s : State) :
    (∃ ra rb, a = operandOf ra ∧ b = operandOf rb ∧
      exec (.sub a b) s = .next ((s.setReg ra (aluSub (s.reg ra) (s.reg rb))).setPc (s.pc + 3))) ∨
    Raises 3 s (exec (.sub a b) s) := execArith_cases aluSub a b s

theorem exec_mul_cases (a b : Byte) (s : State) :
    (∃ ra rb, a = operandOf ra ∧ b = operandOf rb ∧
      exec (.mul a b) s = .next ((s.setReg ra (aluMul (s.reg ra) (s.reg rb))).setPc (s.pc + 3))) ∨
    Raises 3 s (exec (.mul a b) s) := execArith_cases aluMul a b s

theorem exec_cmp_cases (a b : Byte) (s : State) :
    (∃ ra rb, a = operandOf ra ∧ b = operandOf rb ∧
      exec (.cmp a b) s = .next ((s.setFlags (compareFlags (s.reg ra) (s.reg rb))).setPc (s.pc + 3))) ∨
    Raises 3 s (exec (.cmp a b) s) := by
  obtain ⟨ra, rb, ha, hb, e⟩ | ⟨-, e⟩ | ⟨-, -, e⟩ :=
    withRegs_cases a b s fun ra rb => finish 3 .advance (s.setFlags (compareFlags (s.reg ra) (s.reg rb)))
  · exact .inl ⟨ra, rb, ha, hb, e⟩
  · exact .inr (raises_byte e)
  · exact .inr (raises_byte e)

theorem exec_push_cases (a : Byte) (s : State) :
    (∃ r m, a = operandOf r ∧
      s.mem.write s.pushedSp.toNat ((s.setSp s.pushedSp).reg r) = some m ∧
      exec (.push a) s = .next (((s.setSp s.pushedSp).setMem m).setPc (s.pc + 2))) ∨
    Raises 2 s (exec (.push a) s) := by
  obtain ⟨r, h, e⟩ | ⟨-, e⟩ := withReg_cases a s fun r =>
    withWrite s.pushedSp.toNat ((s.setSp s.pushedSp).reg r) s fun m =>
      finish 2 .advance ((s.setSp s.pushedSp).setMem m)
  · obtain ⟨m, hm, -, e'⟩ | ⟨-, e'⟩ := withWrite_cases s.pushedSp.toNat ((s.setSp s.pushedSp).reg r) s fun m =>
      finish 2 .advance ((s.setSp s.pushedSp).setMem m)
    · exact .inl ⟨r, m, h, hm, e.trans e'⟩
    · exact .inr (raises_byte (e.trans e'))
  · exact .inr (raises_byte e)

theorem exec_pop_cases (a : Byte) (s : State) :
    (∃ r v, a = operandOf r ∧ s.mem.read s.sp.toNat = some v ∧
      exec (.pop a) s = .next (((s.setReg r v).setSp (s.setReg r v).poppedSp).setPc (s.pc + 2))) ∨
    Raises 2 s (exec (.pop a) s) := by
  obtain ⟨r, h, e⟩ | ⟨-, e⟩ := withReg_cases a s fun r => withRead s.sp.toNat s fun v =>
    finish 2 .advance ((s.setReg r v).setSp (s.setReg r v).poppedSp)
  · obtain ⟨v, hv, -, e'⟩ | ⟨-, e'⟩ := withRead_cases s.sp.toNat s fun v =>
      finish 2 .advance ((s.setReg r v).setSp (s.setReg r v).poppedSp)
    · exact .inl ⟨r, v, h, hv, e.trans e'⟩
    · exact .inr (raises_byte (e.trans e'))
  · exact .inr (raises_byte e)

theorem exec_jmp_cases (a : Byte) (s : State) :
    (∃ r, a = operandOf r ∧ exec (.jmp a) s = .next (s.setPc (s.reg r).toNat)) ∨ Raises 2 s (exec (.jmp a) s) := by
  obtain ⟨r, h, e⟩ | ⟨-, e⟩ := withReg_cases a s fun r => finish 2 (.jump (s.reg r)) s
  · exact .inl ⟨r, h, e⟩
  · exact .inr (raises_byte e)

theorem exec_jeq_cases (a : Byte) (s : State) :
    (∃ r, a = operandOf r ∧
      exec (.jeq a) s = .next (s.setPc (if s.fl.E then (s.reg r).toNat else s.pc + 2))) ∨
    Raises 2 s (exec (.jeq a) s) := by
  obtain ⟨r, h, e⟩ | ⟨-, e⟩ := withReg_cases a s fun r => finish 2 (if s.fl.E then .jump (s.reg r) else .advance) s
  · refine .inl ⟨r, h, e.trans ?_⟩
    cases s.fl.E <;> rfl
  · exact .inr (raises_byte e)

theorem exec_jne_cases (a : Byte) (s : State) :
    (∃ r, a = operandOf r ∧
      exec (.jne a) s = .next (s.setPc (if s.fl.E then s.pc + 2 else (s.reg r).toNat))) ∨
    Raises 2 s (exec (.jne a) s) := by
  obtain ⟨r, h, e⟩ | ⟨-, e⟩ := withReg_cases a s fun r => finish 2 (if s.fl.E then .advance else .jump (s.reg r)) s
  · refine .inl ⟨r, h, e.trans ?_⟩
    cases s.fl.E <;> rfl
  · exact .inr (raises_byte e)

theorem exec_call_cases (a : Byte) (s : State) :
    (∃ r m, a = operandOf r ∧ s.pc + 2 ≤ 255 ∧
      s.mem.write s.pushedSp.toNat (BitVec.ofNat 8 (s.pc + 2)) = some m ∧
      exec (.call a) s = .next (((s.setSp s.pushedSp).setMem m).setPc ((s.setSp s.pushedSp).reg r).toNat)) ∨
    Raises 2 s (exec (.call a) s) := by
  obtain ⟨r, h, e⟩ | ⟨-, e⟩ := withReg_cases a s fun r =>
    if s.returnAddress ≤ 255 then
      withWrite s.pushedSp.toNat (BitVec.ofNat 8 s.returnAddress) s fun m =>
        finish 2 (.jump ((s.setSp s.pushedSp).reg r)) ((s.setSp s.pushedSp).setMem m)
    else raise .outOfBounds s.returnAddress s
  · by_cases hret : s.returnAddress ≤ 255
    · rw [if_pos hret] at e
      obtain ⟨m, hm, -, e'⟩ | ⟨-, e'⟩ :=
        withWrite_cases s.pushedSp.toNat (BitVec.ofNat 8 s.returnAddress) s fun m =>
          finish 2 (.jump ((s.setSp s.pushedSp).reg r)) ((s.setSp s.pushedSp).setMem m)
      · exact .inl ⟨r, m, h, hret, hm, e.trans e'⟩
      · exact .inr (raises_byte (e.trans e'))
    · rw [if_neg hret] at e
      exact .inr ⟨_, _, .inr rfl, e⟩
  · exact .inr (raises_byte e)

theorem exec_ret_cases (s : State) :
    (∃ t, s.mem.read s.sp.toNat = some t ∧ exec .ret s = .next ((s.setSp s.poppedSp).setPc t.toNat)) ∨
    Raises 1 s (exec .ret s) := by
  obtain ⟨t, ht, -, e⟩ | ⟨-, e⟩ := withRead_cases s.sp.toNat s fun t =>
    finish 1 (.jump t) (s.setSp s.poppedSp)
  · exact .inl ⟨t, ht, e⟩
  · exact .inr (raises_byte e)

/-! ## The stack instructions past the register check -/

theorem exec_push_eq (r : Reg) (s : State) : exec (.push (operandOf r)) s =
    withWrite s.pushedSp.toNat ((s.setSp s.pushedSp).reg r) s fun m =>
      finish 2 .advance ((s.setSp s.pushedSp).setMem m) := withReg_operandOf ..

theorem exec_pop_eq (r : Reg) (s : State) : exec (.pop (operandOf r)) s =
    withRead s.sp.toNat s fun v => finish 2 .advance ((s.setReg r v).setSp (s.setReg r v).poppedSp) :=
  withReg_operandOf ..

theorem exec_call_eq (r : Reg) {s : State} (h : s.pc + 2 ≤ 255) : exec (.call (operandOf r)) s =
    withWrite s.pushedSp.toNat (BitVec.ofNat 8 (s.pc + 2)) s fun m =>
      finish 2 (.jump ((s.setSp s.pushedSp).reg r)) ((s.setSp s.pushedSp).setMem m) :=
  (withReg_operandOf ..).trans (if_pos h)

theorem exec_call_of_gt (r : Reg) {s : State} (h : 255 < s.pc + 2) : exec (.call (operandOf r)) s =
    raise .outOfBounds (s.pc + 2) s :=
  (withReg_operandOf ..).trans (if_neg (show ¬ s.pc + 2 ≤ 255 by omega))

/-! ## All instructions at once -/

/-- No instruction stops the machine: `exec` always answers a next state. -/
theorem exec_next (i : Instr) (s : State) : ∃ t, exec i s = .next t := by
  have raised : ∀ {len}, Raises len s (exec i s) → ∃ t, exec i s = .next t := fun ⟨_, _, _, h⟩ => ⟨_, h⟩
  cases i with
  | hlt => exact ⟨_, rfl⟩
  | ret => exact (exec_ret_cases s).elim (fun ⟨_, _, h⟩ => ⟨_, h⟩) raised
  | push a => exact (exec_push_cases a s).elim (fun ⟨_, _, _, _, h⟩ => ⟨_, h⟩) raised
  | pop a => exact (exec_pop_cases a s).elim (fun ⟨_, _, _, _, h⟩ => ⟨_, h⟩) raised
  | prn a => exact (exec_prn_cases a s).elim (fun ⟨_, _, h⟩ => ⟨_, h⟩) raised
  | call a => exact (exec_call_cases a s).elim (fun ⟨_, _, _, _, _, h⟩ => ⟨_, h⟩) raised
  | jmp a => exact (exec_jmp_cases a s).elim (fun ⟨_, _, h⟩ => ⟨_, h⟩) raised
  | jeq a => exact (exec_jeq_cases a s).elim (fun ⟨_, _, h⟩ => ⟨_, h⟩) raised
  | jne a => exact (exec_jne_cases a s).elim (fun ⟨_, _, h⟩ => ⟨_, h⟩) raised
  | ldi a imm => exact (exec_ldi_cases a imm s).elim (fun ⟨_, _, h⟩ => ⟨_, h⟩) raised
  | add a b => exact (exec_add_cases a b s).elim (fun ⟨_, _, _, _, h⟩ => ⟨_, h⟩) raised
  | sub a b => exact (exec_sub_cases a b s).elim (fun ⟨_, _, _, _, h⟩ => ⟨_, h⟩) raised
  | mul a b => exact (exec_mul_cases a b s).elim (fun ⟨_, _, _, _, h⟩ => ⟨_, h⟩) raised
  | cmp a b => exact (exec_cmp_cases a b s).elim (fun ⟨_, _, _, _, h⟩ => ⟨_, h⟩) raised

/-- What completing instruction `i` in `s` can lead to: the state its rule gives, with what its checks found. -/
inductive Completes (s : State) : Instr → State → Prop
  | hlt : Completes s .hlt (s.halt.setPc (s.pc + 1))
  | ret (v : Byte) (h : s.mem.read s.sp.toNat = some v) :
      Completes s .ret ((s.setSp s.poppedSp).setPc v.toNat)
  | push (a : Byte) (r : Reg) (m : Memory) (ha : a = operandOf r)
      (h : s.mem.write s.pushedSp.toNat ((s.setSp s.pushedSp).reg r) = some m) :
      Completes s (.push a) (((s.setSp s.pushedSp).setMem m).setPc (s.pc + 2))
  | pop (a : Byte) (r : Reg) (v : Byte) (ha : a = operandOf r) (h : s.mem.read s.sp.toNat = some v) :
      Completes s (.pop a) (((s.setReg r v).setSp (s.setReg r v).poppedSp).setPc (s.pc + 2))
  | prn (a : Byte) (r : Reg) (ha : a = operandOf r) : Completes s (.prn a) ((s.emit (s.reg r)).setPc (s.pc + 2))
  | call (a : Byte) (r : Reg) (m : Memory) (ha : a = operandOf r) (hret : s.pc + 2 ≤ 255)
      (h : s.mem.write s.pushedSp.toNat (BitVec.ofNat 8 (s.pc + 2)) = some m) :
      Completes s (.call a)
        (((s.setSp s.pushedSp).setMem m).setPc ((s.setSp s.pushedSp).reg r).toNat)
  | jmp (a : Byte) (r : Reg) (ha : a = operandOf r) : Completes s (.jmp a) (s.setPc (s.reg r).toNat)
  | jeq (a : Byte) (r : Reg) (ha : a = operandOf r) :
      Completes s (.jeq a) (s.setPc (if s.fl.E then (s.reg r).toNat else s.pc + 2))
  | jne (a : Byte) (r : Reg) (ha : a = operandOf r) :
      Completes s (.jne a) (s.setPc (if s.fl.E then s.pc + 2 else (s.reg r).toNat))
  | ldi (a imm : Byte) (r : Reg) (ha : a = operandOf r) :
      Completes s (.ldi a imm) ((s.setReg r imm).setPc (s.pc + 3))
  | add (a b : Byte) (ra rb : Reg) (ha : a = operandOf ra) (hb : b = operandOf rb) : Completes s (.add a b)
      ((s.setReg ra (aluAdd (s.reg ra) (s.reg rb))).setPc (s.pc + 3))
  | sub (a b : Byte) (ra rb : Reg) (ha : a = operandOf ra) (hb : b = operandOf rb) : Completes s (.sub a b)
      ((s.setReg ra (aluSub (s.reg ra) (s.reg rb))).setPc (s.pc + 3))
  | mul (a b : Byte) (ra rb : Reg) (ha : a = operandOf ra) (hb : b = operandOf rb) : Completes s (.mul a b)
      ((s.setReg ra (aluMul (s.reg ra) (s.reg rb))).setPc (s.pc + 3))
  | cmp (a b : Byte) (ra rb : Reg) (ha : a = operandOf ra) (hb : b = operandOf rb) : Completes s (.cmp a b)
      ((s.setFlags (compareFlags (s.reg ra) (s.reg rb))).setPc (s.pc + 3))

/-- A fault raised by `exec`, as the state it leads to. -/
theorem exec_raised {i : Instr} {s t : State} (h : exec i s = .next t) (hr : Raises i.length s (exec i s)) :
    ∃ kind info, (info ≤ 255 ∨ info = s.pc + i.length) ∧ t = s.takeFault kind info :=
  (h ▸ hr).eq_takeFault

/-- The inversion lemma of `exec`: the instruction completes, or a fault is taken in the state it started from. -/
theorem exec_cases {i : Instr} {s t : State} (h : exec i s = .next t) :
    Completes s i t ∨ ∃ kind info, (info ≤ 255 ∨ info = s.pc + i.length) ∧ t = s.takeFault kind info := by
  have is : ∀ {u}, exec i s = .next u → t = u := fun e => by rw [h] at e; injection e
  cases i with
  | hlt => exact .inl (is rfl ▸ .hlt)
  | ret => exact (exec_ret_cases s).imp (fun ⟨v, hv, e⟩ => is e ▸ .ret v hv) (exec_raised h)
  | push a => exact (exec_push_cases a s).imp (fun ⟨r, m, ha, hm, e⟩ => is e ▸ .push a r m ha hm) (exec_raised h)
  | pop a => exact (exec_pop_cases a s).imp (fun ⟨r, v, ha, hv, e⟩ => is e ▸ .pop a r v ha hv) (exec_raised h)
  | prn a => exact (exec_prn_cases a s).imp (fun ⟨r, ha, e⟩ => is e ▸ .prn a r ha) (exec_raised h)
  | call a =>
    exact (exec_call_cases a s).imp (fun ⟨r, m, ha, hret, hm, e⟩ => is e ▸ .call a r m ha hret hm) (exec_raised h)
  | jmp a => exact (exec_jmp_cases a s).imp (fun ⟨r, ha, e⟩ => is e ▸ .jmp a r ha) (exec_raised h)
  | jeq a => exact (exec_jeq_cases a s).imp (fun ⟨r, ha, e⟩ => is e ▸ .jeq a r ha) (exec_raised h)
  | jne a => exact (exec_jne_cases a s).imp (fun ⟨r, ha, e⟩ => is e ▸ .jne a r ha) (exec_raised h)
  | ldi a imm => exact (exec_ldi_cases a imm s).imp (fun ⟨r, ha, e⟩ => is e ▸ .ldi a imm r ha) (exec_raised h)
  | add a b =>
    exact (exec_add_cases a b s).imp (fun ⟨ra, rb, ha, hb, e⟩ => is e ▸ .add a b ra rb ha hb) (exec_raised h)
  | sub a b =>
    exact (exec_sub_cases a b s).imp (fun ⟨ra, rb, ha, hb, e⟩ => is e ▸ .sub a b ra rb ha hb) (exec_raised h)
  | mul a b =>
    exact (exec_mul_cases a b s).imp (fun ⟨ra, rb, ha, hb, e⟩ => is e ▸ .mul a b ra rb ha hb) (exec_raised h)
  | cmp a b =>
    exact (exec_cmp_cases a b s).imp (fun ⟨ra, rb, ha, hb, e⟩ => is e ▸ .cmp a b ra rb ha hb) (exec_raised h)

end Sys2Proof.Machine
end

