-- ==== Sys2Proof/Laws/HostPort.lean ====
section
/-! SUPPORT. The host's load: when it happens and what it answers, and the Loader line by line. -/

namespace Sys2Proof.Machine

/-! ## The load -/

@[simp] theorem State.atReset_resetOfSize (n : Nat) : (State.resetOfSize n).atReset = true :=
  decide_eq_true (rfl : State.resetOfSize n = State.resetOfSize n)

theorem State.atReset_iff (s : State) : s.atReset = true ↔ s = State.resetOfSize s.mem.size := decide_eq_true_iff

/-- The load of a CORE as reset left it, the one case in which the host loads (R201, R202, R205). -/
theorem State.hostLoad_resetOfSize (n : Nat) (img : List Byte) : (State.resetOfSize n).hostLoad img =
    if img.length ≤ n then
      .ok { State.resetOfSize n with mem := (State.resetOfSize n).mem.place 0 img }
    else .error .imageTooLong := by
  rw [State.hostLoad, State.atReset_resetOfSize, if_pos rfl]
  rfl

theorem State.hostLoad_of_ne {s : State} (h : s ≠ State.resetOfSize s.mem.size) (img : List Byte) :
    s.hostLoad img = .error .notAtReset :=
  if_neg fun hr => h ((s.atReset_iff).1 hr)

/-- Everything a load can answer. -/
theorem State.hostLoad_cases (s : State) (img : List Byte) :
    (s = State.resetOfSize s.mem.size ∧ img.length ≤ s.mem.size ∧
      s.hostLoad img = .ok { s with mem := s.mem.place 0 img }) ∨
    (s = State.resetOfSize s.mem.size ∧ s.mem.size < img.length ∧ s.hostLoad img = .error .imageTooLong) ∨
    (s ≠ State.resetOfSize s.mem.size ∧ s.hostLoad img = .error .notAtReset) := by
  by_cases hr : s = State.resetOfSize s.mem.size
  · have ha := (s.atReset_iff).2 hr
    by_cases hl : img.length ≤ s.mem.size
    · exact .inl ⟨hr, hl, by rw [State.hostLoad, if_pos ha, if_pos hl]⟩
    · exact .inr (.inl ⟨hr, by omega, by rw [State.hostLoad, if_pos ha, if_neg hl]⟩)
  · exact .inr (.inr ⟨hr, State.hostLoad_of_ne hr img⟩)

theorem cellsCons_ne_nil (a : Nat) {v : Byte} (hv : v ≠ 0) (rest : List Host.Cell) : cellsCons a v rest ≠ [] := by
  rw [cellsCons, if_neg hv]
  exact List.cons_ne_nil _ _

/-- Storing a byte that is not zero leaves a cell listed, so memory is then not as reset left it. -/
theorem cellsSet_ne_nil (a : Nat) {v : Byte} (hv : v ≠ 0) (cells : List Host.Cell) : cellsSet a v cells ≠ [] := by
  cases cells with
  | nil => exact cellsCons_ne_nil a hv []
  | cons c rest =>
    unfold cellsSet
    split
    · exact cellsCons_ne_nil a hv _
    · split
      · exact cellsCons_ne_nil a hv _
      · exact List.cons_ne_nil _ _

/-- A byte that is not zero is read from a listed cell. -/
theorem Memory.cells_ne_nil_of_read {m : Memory} {a : Nat} {v : Byte} (h : m.read a = some v) (hv : v ≠ 0) :
    m.cells ≠ [] := by
  intro hc
  unfold Memory.read at h
  split at h
  · rw [hc] at h
    injection h with h
    exact hv h.symm
  · cases h

/-! ## The Loader -/

/-- A line without a token is skipped (R203, R204). -/
theorem parseLines_skip {line : List Char} (h : lineToken line = []) (rest : List (List Char)) :
    parseLines (line :: rest) = parseLines rest := by
  rw [parseLines, h]

/-- A retained line puts its byte in front of what the rest gives, or is refused (R203, R205). -/
theorem parseLines_retained {line : List Char} (h : lineToken line ≠ []) (rest : List (List Char)) :
    parseLines (line :: rest) = (parseToken (lineToken line)).bind fun v => (parseLines rest).map fun img => v :: img := by
  rw [parseLines]
  split
  · exact absurd ‹_› h
  · cases parseToken (lineToken line) with
    | error e => rfl
    | ok v => cases parseLines rest <;> rfl

/-- The one reason for which the Loader refuses a file it has read is a malformed token (R205). -/
theorem parseToken_error {token : List Char} {e : LoadError} (h : parseToken token = .error e) :
    e = .malformedToken := by
  unfold parseToken at h
  split at h
  · split at h
    · cases h
    · injection h with h
      exact h.symm
  · injection h with h
    exact h.symm

theorem parseLines_error {lines : List (List Char)} {e : LoadError} (h : parseLines lines = .error e) :
    e = .malformedToken := by
  induction lines with
  | nil => cases h
  | cons line rest ih =>
    by_cases ht : lineToken line = []
    · exact ih (parseLines_skip ht rest ▸ h)
    · rw [parseLines_retained ht] at h
      cases hp : parseToken (lineToken line) with
      | error e' =>
        rw [hp] at h
        injection h with h
        subst h
        exact parseToken_error hp
      | ok v =>
        rw [hp] at h
        cases hr : parseLines rest with
        | error e' =>
          rw [hr] at h
          injection h with h
          subst h
          exact ih hr
        | ok img => rw [hr] at h; cases h

/-- A file that loads: its image has one byte for each retained line, and no retained line is malformed. -/
theorem parseLines_ok {lines : List (List Char)} {img : List Byte} (h : parseLines lines = .ok img) :
    img.length = lines.countP (fun line => decide (lineToken line ≠ [])) ∧
    ∀ line ∈ lines, lineToken line ≠ [] → ∃ v, parseToken (lineToken line) = .ok v := by
  induction lines generalizing img with
  | nil => injection h with h; subst h; exact ⟨rfl, fun _ hm => (by cases hm)⟩
  | cons line rest ih =>
    by_cases ht : lineToken line = []
    · obtain ⟨h1, h2⟩ := ih (parseLines_skip ht rest ▸ h)
      refine ⟨by simp [h1, ht], fun l hl hne => ?_⟩
      rcases List.mem_cons.1 hl with rfl | hl
      · exact absurd ht hne
      · exact h2 l hl hne
    · rw [parseLines_retained ht] at h
      cases hp : parseToken (lineToken line) with
      | error e => rw [hp] at h; cases h
      | ok v =>
        cases hr : parseLines rest with
        | error e => rw [hp, hr] at h; cases h
        | ok img' =>
          rw [hp, hr] at h
          injection h with h
          subst h
          obtain ⟨h1, h2⟩ := ih hr
          refine ⟨by simp [h1, ht], fun l hl hne => ?_⟩
          rcases List.mem_cons.1 hl with rfl | hl
          · exact ⟨v, hp⟩
          · exact h2 l hl hne

/-- Boot is the load of what the Loader reads, or the Loader's refusal (R201, R205). -/
theorem boot_some (n : Nat) (lines : List (List Char)) :
    boot n (some lines) = (parseLines lines).bind (State.resetOfSize n).hostLoad := by
  cases h : parseLines lines <;> simp [boot, h, Except.bind]

end Sys2Proof.Machine
end

