-- ==== Sys2Proof/Laws/PerInstr.lean ====
section
/-! SUPPORT. The family of statements made instruction by instruction: what the decoder reads from an instruction's own
words, whatever bytes follow them. -/

namespace Sys2Proof.Laws.DecodeEncode

/-- Decoding an instruction's words gives the instruction back and leaves the bytes that follow (R62, R65). -/
def Statement (i : Instr) : Prop := ∀ rest : List Byte, decode (encode i ++ rest) = .ok (i, rest)

theorem hlt : Statement .hlt := fun rest => decode_count0 (o := .hlt) rfl rfl rest

theorem ret : Statement .ret := fun rest => decode_count0 (o := .ret) rfl rfl rest

theorem push (a : Byte) : Statement (.push a) := fun rest => decode_count1 (o := .push) rfl rfl a rest

theorem pop (a : Byte) : Statement (.pop a) := fun rest => decode_count1 (o := .pop) rfl rfl a rest

theorem prn (a : Byte) : Statement (.prn a) := fun rest => decode_count1 (o := .prn) rfl rfl a rest

theorem call (a : Byte) : Statement (.call a) := fun rest => decode_count1 (o := .call) rfl rfl a rest

theorem jmp (a : Byte) : Statement (.jmp a) := fun rest => decode_count1 (o := .jmp) rfl rfl a rest

theorem jeq (a : Byte) : Statement (.jeq a) := fun rest => decode_count1 (o := .jeq) rfl rfl a rest

theorem jne (a : Byte) : Statement (.jne a) := fun rest => decode_count1 (o := .jne) rfl rfl a rest

theorem ldi (a imm : Byte) : Statement (.ldi a imm) := fun rest => decode_count2 (o := .ldi) rfl rfl a imm rest

theorem add (a b : Byte) : Statement (.add a b) := fun rest => decode_count2 (o := .add) rfl rfl a b rest

theorem sub (a b : Byte) : Statement (.sub a b) := fun rest => decode_count2 (o := .sub) rfl rfl a b rest

theorem mul (a b : Byte) : Statement (.mul a b) := fun rest => decode_count2 (o := .mul) rfl rfl a b rest

theorem cmp (a b : Byte) : Statement (.cmp a b) := fun rest => decode_count2 (o := .cmp) rfl rfl a b rest

end Sys2Proof.Laws.DecodeEncode
end

