-- ==== Sys2Proof/Laws/Step.lean ====
section
/-! SUPPORT. What a step can do: the fetch, the lookup, and one inversion lemma for a cycle. -/

namespace Sys2Proof.Machine

theorem step_of_running {s : State} (h : s.status = .running) : step s = cycle exec s := by
  simp [step, h]

theorem step_of_halted {s : State} (h : s.status = .halted) : step s = .fault .noStepWhenHalted := by
  simp [step, h]

theorem step_of_faulted {s : State} {r : FaultRecord} (h : s.status = .faulted r) :
    step s = .fault .noStepWhenFaulted := by
  simp [step, h]

/-- A step to a next state was taken while RUNNING (R31, R80). -/
theorem running_of_step_next {s t : State} (h : step s = .next t) : s.status = .running := by
  cases hs : s.status with
  | running => rfl
  | halted => rw [step_of_halted hs] at h; cases h
  | faulted r => rw [step_of_faulted hs] at h; cases h

/-! ## Fetch, by the number of operand bytes -/

theorem withFetched_count0 {s : State} {op : Byte} (h0 : s.mem.read s.pc = some op) (hc : operandCount op = 0)
    (k : List Byte → Result) : withFetched s k = k [op] := by
  simp [withFetched, withRead_of_some h0, hc]

theorem withFetched_count1 {s : State} {op a : Byte} (h0 : s.mem.read s.pc = some op) (hc : operandCount op = 1)
    (h1 : s.mem.read (s.pc + 1) = some a) (k : List Byte → Result) : withFetched s k = k [op, a] := by
  simp [withFetched, withRead_of_some h0, hc, withRead_of_some h1]

theorem withFetched_count2 {s : State} {op a b : Byte} (h0 : s.mem.read s.pc = some op) (hc : 2 ≤ operandCount op)
    (h1 : s.mem.read (s.pc + 1) = some a) (h2 : s.mem.read (s.pc + 2) = some b) (k : List Byte → Result) :
    withFetched s k = k [op, a, b] := by
  simp [withFetched, withRead_of_some h0, show operandCount op ≠ 0 by omega, show operandCount op ≠ 1 by omega,
    withRead_of_some h1, withRead_of_some h2]

/-- A missing byte of the instruction raises OutOfBounds with its address (R82, R84). -/
theorem withFetched_of_ge {s : State} (h : s.mem.size ≤ s.pc) (k : List Byte → Result) :
    withFetched s k = raise .outOfBounds s.pc s := withRead_of_ge h _

theorem withFetched_missing1 {s : State} {op : Byte} (h0 : s.mem.read s.pc = some op) (hc : 1 ≤ operandCount op)
    (h : s.mem.size ≤ s.pc + 1) (k : List Byte → Result) : withFetched s k = raise .outOfBounds (s.pc + 1) s := by
  simp [withFetched, withRead_of_some h0, show operandCount op ≠ 0 by omega, withRead_of_ge h]

theorem withFetched_missing2 {s : State} {op a : Byte} (h0 : s.mem.read s.pc = some op) (hc : 2 ≤ operandCount op)
    (h1 : s.mem.read (s.pc + 1) = some a) (h : s.mem.size ≤ s.pc + 2) (k : List Byte → Result) :
    withFetched s k = raise .outOfBounds (s.pc + 2) s := by
  simp [withFetched, withRead_of_some h0, show operandCount op ≠ 0 by omega, show operandCount op ≠ 1 by omega,
    withRead_of_some h1, withRead_of_ge h]

/-! ## The lookup -/

theorem withDecoded_of_ok {bytes rest : List Byte} {i : Instr} (h : decode bytes = .ok (i, rest)) (s : State)
    (k : Instr → Result) : withDecoded bytes s k = k i := by
  simp [withDecoded, h]

theorem withDecoded_of_unknown {bytes : List Byte} {op : Byte} (h : decode bytes = .error (.unknownInstruction op))
    (s : State) (k : Instr → Result) : withDecoded bytes s k = raise .unknownInstruction op.toNat s := by
  simp [withDecoded, h]

/-- Fetched bytes of the right number are decoded by the opcode byte alone (R65). -/
theorem decode_fetched {op a b : Byte} {bytes : List Byte}
    (h : bytes = op :: [a, b].take (operandCount op)) :
    decode bytes = match decodeOpcode op with
      | some o => .ok (o.build a b, [])
      | none => .error (.unknownInstruction op) := by
  subst h
  rcases hc : operandCount op with _ | _ | n
  · cases hd : decodeOpcode op with
    | none => simp [decode, hc, decodeWith_of_none hd]
    | some o =>
      have e : o.build a b = o.build 0 0 := by
        have h1 := encode_build hd a b
        have h2 := encode_build hd 0 0
        rw [hc] at h1 h2
        cases o <;> first | rfl | (simp [encode, Opcode.build] at h1)
      simp [decode, hc, decodeWith_of_some hd, e]
  · cases hd : decodeOpcode op with
    | none => simp [decode, hc, decodeWith_of_none hd]
    | some o =>
      have e : o.build a b = o.build a 0 := by
        have h1 := encode_build hd a b
        rw [hc] at h1
        cases o <;> first | rfl | (simp [encode, Opcode.build] at h1)
      simp [decode, hc, decodeWith_of_some hd, e]
  · cases hd : decodeOpcode op with
    | none => simp [decode, hc, decodeWith_of_none hd]
    | some o => simp [decode, hc, decodeWith_of_some hd]

/-! ## The cycle -/

/-- A cycle whose bytes are in memory: the handler runs, or UnknownInstruction is raised (R85, R90). -/
theorem cycle_of_bytes (run : Instr → State → Result) {s : State} {op a b : Byte} (h0 : s.mem.read s.pc = some op)
    (h1 : 1 ≤ operandCount op → s.mem.read (s.pc + 1) = some a)
    (h2 : 2 ≤ operandCount op → s.mem.read (s.pc + 2) = some b) :
    cycle run s = match decodeOpcode op with
      | some o => run (o.build a b) s
      | none => raise .unknownInstruction op.toNat s := by
  have hf : withFetched s (fun bytes => withDecoded bytes s fun i => run i s) =
      withDecoded (op :: [a, b].take (operandCount op)) s fun i => run i s := by
    rcases hc : operandCount op with _ | _ | n
    · simp [withFetched_count0 h0 hc]
    · simp [withFetched_count1 h0 hc (h1 (by omega))]
    · simp [withFetched_count2 h0 (by omega) (h1 (by omega)) (h2 (by omega))]
  have hd := decode_fetched (op := op) (a := a) (b := b) rfl
  unfold cycle
  rw [hf]
  cases ho : decodeOpcode op with
  | none => rw [ho] at hd; exact withDecoded_of_unknown hd s _
  | some o => rw [ho] at hd; exact withDecoded_of_ok hd s _

/-- Everything a cycle can do: it raises a fault of the fetch or of the lookup, or it runs one instruction, all of
whose bytes lie in memory (R90). -/
theorem cycle_cases (run : Instr → State → Result) (s : State) :
    (∃ kind info, (info ≤ 255 ∨ info ≤ s.mem.size ∨ info = s.pc) ∧ cycle run s = raise kind info s) ∨
    (∃ i, s.pc + i.length ≤ s.mem.size ∧ cycle run s = run i s) := by
  by_cases hp : s.pc < s.mem.size
  swap
  · exact .inl ⟨_, _, .inr (.inr rfl), withFetched_of_ge (by omega) _⟩
  have h0 := Memory.read_of_lt hp
  generalize cellsGet s.mem.cells s.pc = op at h0
  by_cases hc1 : 1 ≤ operandCount op ∧ s.mem.size ≤ s.pc + 1
  · exact .inl ⟨_, _, .inr (.inl (by omega)), withFetched_missing1 h0 hc1.1 hc1.2 _⟩
  by_cases hc2 : 2 ≤ operandCount op ∧ s.mem.size ≤ s.pc + 2
  · exact .inl ⟨_, _, .inr (.inl (by omega)),
      withFetched_missing2 h0 hc2.1 (Memory.read_of_lt (by omega)) hc2.2 _⟩
  have h := cycle_of_bytes run h0 (fun hc => Memory.read_of_lt (show s.pc + 1 < s.mem.size by omega))
    (fun hc => Memory.read_of_lt (show s.pc + 2 < s.mem.size by omega))
  cases ho : decodeOpcode op with
  | none =>
    rw [ho] at h
    exact .inl ⟨_, _, .inl (by have := op.isLt; omega), h⟩
  | some o =>
    rw [ho] at h
    refine .inr ⟨_, ?_, h⟩
    rw [length_build ho]
    have := operandCount_le_of_some ho
    omega

end Sys2Proof.Machine
end

