-- ==== Sys2Proof/Laws/Safety.lean ====
section
/-! SUPPORT. Runs, step by step (R92). -/

namespace Sys2Proof.Machine

/-- A run of `k + 1` steps of any machine is a step and then a run of `k`, or it stops at that step. -/
theorem run_succ_next_iff (M : Host.Core) (k : Nat) (s t : M.State) :
    M.run (k + 1) s = .next t ↔ ∃ u, M.step s = .next u ∧ M.run k u = .next t := by
  rw [Host.Core.run]
  cases M.step s with
  | next u => exact ⟨fun h => ⟨u, rfl, h⟩, fun ⟨u', e, h⟩ => by injection e with e; subst e; exact h⟩
  | fault r => exact ⟨fun h => (by cases h), fun ⟨_, e, _⟩ => (by cases e)⟩
  | refused r => exact ⟨fun h => (by cases h), fun ⟨_, e, _⟩ => (by cases e)⟩

theorem reaches_zero (s t : State) : Reaches 0 s t ↔ s = t := by
  constructor
  · intro h
    injection h
  · rintro rfl
    rfl

/-- A run of one step more begins with a step. -/
theorem reaches_succ (k : Nat) (s t : State) : Reaches (k + 1) s t ↔ ∃ u, step s = .next u ∧ Reaches k u t :=
  run_succ_next_iff Sys2Proof.core k s t

/-- Runs compose. -/
theorem reaches_add (k j : Nat) (s t : State) : Reaches (k + j) s t ↔ ∃ u, Reaches k s u ∧ Reaches j u t := by
  induction k generalizing s with
  | zero => simp [reaches_zero]
  | succ k ih =>
    rw [Nat.add_right_comm, reaches_succ]
    simp only [ih, reaches_succ]
    constructor
    · rintro ⟨u, h, v, h1, h2⟩
      exact ⟨v, ⟨u, h, h1⟩, h2⟩
    · rintro ⟨v, ⟨u, h, h1⟩, h2⟩
      exact ⟨u, h, v, h1, h2⟩

/-- An invariant that every step keeps holds along every run; the induction, once. -/
theorem reaches_invariant {P : State → Prop} (hstep : ∀ s t, P s → step s = .next t → P t) {k : Nat} {s t : State}
    (hs : P s) (h : Reaches k s t) : P t := by
  induction k generalizing s with
  | zero => exact (reaches_zero s t).1 h ▸ hs
  | succ k ih =>
    obtain ⟨u, hu, h⟩ := (reaches_succ k s t).1 h
    exact ih (hstep s u hs hu) h

end Sys2Proof.Machine
end

