-- ==== Sys2Proof/Tests/Slice0.lean ====
section
/-! SUPPORT. The model's own tests: the operand check, every instruction's words, one step at a time against the vectors of
95_test_vectors.md (named in each docstring), the host's ports, and for each statement with hypotheses a witness that
meets them. -/

namespace Sys2Proof.Tests

open Sys2Proof Sys2Proof.Machine Sys2Proof.Claims

/-! ## Helpers -/

/-- A CORE with `n` cells, as after reset but for pc, some registers and the bytes at pc. -/
def startOf (n pc : Nat) (regs : List (Reg × Byte)) (bytes : List Byte) : State :=
  let s := State.resetOfSize n
  { s with
    pc := pc, mem := s.mem.place pc bytes,
    regs := regs.foldl (fun (v : Vector Byte 8) (w : Reg × Byte) => v.set w.1 w.2) s.regs }

/-- The same with 256 cells. -/
def start (pc : Nat) (regs : List (Reg × Byte)) (bytes : List Byte) : State := startOf 256 pc regs bytes

/-- With one more byte in memory. -/
def withByte (a : Nat) (v : Byte) (s : State) : State := { s with mem := s.mem.place a [v] }

/-- With these flags. -/
def withFlags (L G E : Bool) (s : State) : State := { s with fl := ⟨L, G, E⟩ }

/-- A view of the next state, where there is one. -/
def after {α : Type} (r : Result) (view : State → α) : Option α :=
  match r with
  | .next t => some (view t)
  | .fault _ => none
  | .refused _ => none

/-- The run status of a fault. -/
def faulted (kind : FaultKind) (fpc info : Nat) : RunStatus := .faulted ⟨kind, fpc, info⟩

/-- A step that faults as named, and leaves the rest as it was. -/
def faultsAs (s : State) (kind : FaultKind) (fpc info : Nat) : Bool :=
  after (step s) id == some { s with status := faulted kind fpc info }

/-! ## The operand check refuses an ill-formed term, operand by operand (R21, R86) -/

theorem test_wf_push : (Instr.push 8).wellFormed = false := by decide
theorem test_wf_pop : (Instr.pop 8).wellFormed = false := by decide
theorem test_wf_prn : (Instr.prn 200).wellFormed = false := by decide
theorem test_wf_call : (Instr.call 255).wellFormed = false := by decide
theorem test_wf_jmp : (Instr.jmp 16).wellFormed = false := by decide
theorem test_wf_jeq : (Instr.jeq 9).wellFormed = false := by decide
theorem test_wf_jne : (Instr.jne 8).wellFormed = false := by decide
theorem test_wf_ldi : (Instr.ldi 8 0).wellFormed = false ∧ (Instr.ldi 7 255).wellFormed = true := by decide
theorem test_wf_add : (Instr.add 8 0).wellFormed = false ∧ (Instr.add 0 8).wellFormed = false := by decide
theorem test_wf_sub : (Instr.sub 8 0).wellFormed = false ∧ (Instr.sub 0 9).wellFormed = false := by decide
theorem test_wf_mul : (Instr.mul 255 0).wellFormed = false ∧ (Instr.mul 7 8).wellFormed = false := by decide
theorem test_wf_cmp : (Instr.cmp 8 7).wellFormed = false ∧ (Instr.cmp 7 128).wellFormed = false := by decide

/-! ## Each constructor's words, written out from the binary column of R66 and the formats of R62 -/

theorem test_decode_hlt : decode [0b00000001, 0xAA] = .ok (.hlt, [0xAA]) := by decide
theorem test_decode_ret : decode [0b00010001, 0xAA] = .ok (.ret, [0xAA]) := by decide
theorem test_decode_push : decode [0b01000101, 0b00000110, 0xAA] = .ok (.push 6, [0xAA]) := by decide
theorem test_decode_pop : decode [0b01000110, 0b00000101, 0xAA] = .ok (.pop 5, [0xAA]) := by decide
theorem test_decode_prn : decode [0b01000111, 0b11001000, 0xAA] = .ok (.prn 200, [0xAA]) := by decide
theorem test_decode_call : decode [0b01010000, 0b00000001, 0xAA] = .ok (.call 1, [0xAA]) := by decide
theorem test_decode_jmp : decode [0b01010100, 0b00000100, 0xAA] = .ok (.jmp 4, [0xAA]) := by decide
theorem test_decode_jeq : decode [0b01010101, 0b00000011, 0xAA] = .ok (.jeq 3, [0xAA]) := by decide
theorem test_decode_jne : decode [0b01010110, 0b00000011, 0xAA] = .ok (.jne 3, [0xAA]) := by decide
theorem test_decode_ldi : decode [0b10000010, 0b00000011, 0b11111111, 0xAA] = .ok (.ldi 3 255, [0xAA]) := by decide
theorem test_decode_add : decode [0b10100000, 0b00000000, 0b00000001, 0xAA] = .ok (.add 0 1, [0xAA]) := by decide
theorem test_decode_sub : decode [0b10100001, 0b00000010, 0b00000001, 0xAA] = .ok (.sub 2 1, [0xAA]) := by decide
theorem test_decode_mul : decode [0b10100010, 0b00000100, 0b00000011, 0xAA] = .ok (.mul 4 3, [0xAA]) := by decide
theorem test_decode_cmp : decode [0b10100111, 0b00000110, 0b00000101, 0xAA] = .ok (.cmp 6 5, [0xAA]) := by decide

/-- R68's examples of bytes that are no instruction. -/
theorem test_decode_illegal : ∀ op ∈ ([0x00, 0x02, 0x42, 0xC2, 0x20, 0xA5, 0xFF] : List Byte),
    decode [op, 0, 0] = .error (.unknownInstruction op) := by decide

/-- The opcode byte is the low byte of a table word, operand A the next, operand B the one above. -/
theorem test_table_word : decodeTableWord 24 0xC80382 = some (.ldi 3 200) ∧ decodeTableWord 8 0x82 = some (.ldi 0 0) ∧
    decodeTableWord 16 0x0045 = some (.push 0) ∧ decodeTableWord 8 0x00 = none := by decide

/-- The word stored where the next step fetches is the instruction that step runs. -/
theorem test_fetch_word :
    after (step (State.reset.withFetchWord 24 0xC80382)) (fun t => (t.reg 3, t.pc)) = some (200, 3) := by decide

/-! ## Data and control -/

/-- D-2. -/
theorem test_ldi_sp : after (step (start 0 [] [0x82, 0x07, 0x40])) (fun t => (t.sp, t.pc)) = some (0x40, 3) := by decide
/-- D-3. -/
theorem test_ldi_bad : faultsAs (start 0 [] [0x82, 0x08, 0x01]) .invalidRegister 0 8 = true := by decide
/-- D-4. -/
theorem test_prn : after (step (start 0 [(2, 0xFF)] [0x47, 2])) (fun t => (t.out, t.pc)) = some ([255], 2) := by decide
/-- D-6. -/
theorem test_prn_bad : faultsAs (start 0 [] [0x47, 0xC8]) .invalidRegister 0 200 = true := by decide
/-- D-8. -/
theorem test_hlt_top : after (step (start 255 [] [0x01])) (fun t => (t.status, t.pc)) = some (.halted, 256) := by decide

/-! ## ALU -/

/-- A-1. -/
theorem test_add_wraps : after (step (start 0 [(0, 200), (1, 100)] [0xA0, 0, 1]))
    (fun t => (t.reg 0, t.reg 1, t.fl, t.pc)) = some (44, 100, ⟨false, false, false⟩, 3) := by decide
/-- A-19. -/
theorem test_add_bad : faultsAs (start 0 [] [0xA0, 8, 9]) .invalidRegister 0 8 = true := by decide
/-- A-4. -/
theorem test_sub_wraps : after (step (start 0 [(0, 5), (1, 10)] [0xA1, 0, 1])) (fun t => (t.reg 0, t.pc)) =
    some (251, 3) := by decide
/-- A-6. -/
theorem test_sub_self : after (step (start 0 [(0, 0x5A)] [0xA1, 0, 0])) (fun t => t.reg 0) = some 0 := by decide
/-- A-8. -/
theorem test_mul_low_byte : after (step (start 0 [(0, 255), (1, 255)] [0xA2, 0, 1])) (fun t => (t.reg 0, t.pc)) =
    some (1, 3) := by decide
/-- A-7. -/
theorem test_mul_wraps : after (step (start 0 [(0, 20), (1, 13)] [0xA2, 0, 1])) (fun t => (t.reg 0, t.reg 1)) =
    some (4, 13) := by decide
/-- A-13. -/
theorem test_cmp_unsigned : after (step (start 0 [(0, 0x80), (1, 0x7F)] [0xA7, 0, 1]))
    (fun t => (t.fl, t.reg 0, t.pc)) = some (⟨false, true, false⟩, 0x80, 3) := by decide
/-- A-14, from a state in which E is set. -/
theorem test_cmp_replaces : after (step (withFlags false false true (start 0 [(0, 0), (1, 255)] [0xA7, 0, 1])))
    (fun t => t.fl) = some ⟨true, false, false⟩ := by decide

/-! ## Stack -/

/-- S-2. -/
theorem test_push_wraps : after (step (start 0 [(0, 0xAB), (7, 0)] [0x45, 0]))
    (fun t => (t.sp, t.mem.read 0xFF, t.pc)) = some (0xFF, some 0xAB, 2) := by decide
/-- S-3. -/
theorem test_push_sp : after (step (start 0 [] [0x45, 7])) (fun t => (t.sp, t.mem.read 0xF3)) =
    some (0xF3, some 0xF3) := by decide
/-- S-5. -/
theorem test_pop_wraps : after (step (withByte 0xFF 0x42 (start 0 [(7, 0xFF)] [0x46, 0])))
    (fun t => (t.reg 0, t.sp, t.mem.read 0xFF, t.pc)) = some (0x42, 0, some 0x42, 2) := by decide
/-- S-6. -/
theorem test_pop_sp : after (step (withByte 0xF3 0x10 (start 0 [(7, 0xF3)] [0x46, 7]))) (fun t => t.sp) =
    some 0x11 := by decide

/-! ## Flow -/

/-- F-1. -/
theorem test_jmp : after (step (start 0 [(4, 29)] [0x54, 4])) (fun t => t.pc) = some 29 := by decide
/-- F-15, the second of its two cycles; the first is `test_jmp_beyond`. -/
theorem test_fetch_beyond : faultsAs { State.resetOfSize 0x80 with pc := 0x90 } .outOfBounds 0x90 0x90 = true := by decide
/-- F-15. -/
theorem test_jmp_beyond : after (step (startOf 0x80 0 [(0, 0x90)] [0x54, 0])) (fun t => (t.pc, t.status)) =
    some (0x90, .running) := by decide
/-- F-3 and F-4. -/
theorem test_jeq : after (step (withFlags false false true (start 0 [(3, 21)] [0x55, 3]))) (fun t => t.pc) = some 21 ∧
    after (step (withFlags false true false (start 18 [(3, 21)] [0x55, 3]))) (fun t => t.pc) = some 20 := by decide
/-- F-6. -/
theorem test_jeq_bad : faultsAs (withFlags false true false (start 0 [] [0x55, 9])) .invalidRegister 0 9 = true := by decide
/-- F-8. -/
theorem test_jne_equal : after (step (withFlags false false true (start 24 [(3, 15)] [0x56, 3]))) (fun t => t.pc) =
    some 26 := by decide
/-- F-9. -/
theorem test_jne_before_cmp : after (step (start 24 [(3, 15)] [0x56, 3])) (fun t => t.pc) = some 15 := by decide
/-- F-11. -/
theorem test_call_sp : after (step (start 6 [] [0x50, 7])) (fun t => (t.sp, t.mem.read 0xF3, t.pc)) =
    some (0xF3, some 8, 0xF3) := by decide
/-- F-12. -/
theorem test_call_top : faultsAs (start 254 [] [0x50, 2]) .outOfBounds 254 256 = true := by decide
/-- F-13. -/
theorem test_ret : after (step (withByte 0xF3 8 (start 14 [(7, 0xF3)] [0x11]))) (fun t => (t.pc, t.sp)) =
    some (8, 0xF4) := by decide
/-- F-14. -/
theorem test_ret_unmatched : after (step (start 30 [] [0x11])) (fun t => (t.pc, t.sp)) = some (0, 0xF5) := by decide

/-! ## Decode and loop -/

/-- L-4. -/
theorem test_unknown_count3 : faultsAs (start 0 [] [0xC2, 0, 0]) .unknownInstruction 0 0xC2 = true := by decide
/-- L-5. -/
theorem test_operand_before_lookup : faultsAs (start 254 [] [0xC2, 0]) .outOfBounds 254 256 = true := by decide
/-- L-8. -/
theorem test_operand_a_missing : faultsAs (start 255 [] [0x47]) .outOfBounds 255 256 = true := by decide
/-- L-9. -/
theorem test_fetch_past_the_end : faultsAs (start 256 [] []) .outOfBounds 256 256 = true := by decide
/-- S-8. -/
theorem test_push_out_of_bounds : faultsAs (startOf 0x80 0 [] [0x45, 0]) .outOfBounds 0 0xF3 = true := by decide

/-! ## The host's side -/

/-- R204's example line; P6a: no instruction at all is an empty image. -/
theorem test_loader : parseLines ["10000010 # LDI".toList, "# nothing".toList, "  ".toList, " 00000001".toList] =
    .ok [0x82, 0x01] ∧ parseLines ["# nothing".toList, "".toList] = .ok [] := by decide
/-- R205. -/
theorem test_loader_refuses : parseLines ["1000001".toList] = .error .malformedToken ∧
    boot 1 (some ["00000001".toList, "00000001".toList]) = .error .imageTooLong ∧
    boot 256 none = .error .programNotFound := by decide
/-- R7: a CORE that has run one instruction, or that has its program, is loaded no more. -/
theorem test_load_is_before_the_run :
    (after (step (start 0 [] [0x82, 3, 1])) fun t => (t.hostLoad [0x01]).toOption) = some none ∧
      (start 0 [] [0x82, 3, 1]).hostLoad [0x01] = .error .notAtReset ∧
      State.reset.halt.hostLoad [0x01] = .error .notAtReset := by decide
/-- R193, on a state with E set, SP 0xF4 and a fault at 254 (vector L-7's record). -/
theorem test_status_port :
    (State.statusPort { withFlags false false true State.reset with
        pc := 254, status := faulted .outOfBounds 254 256 }).map
      (fun p => (p.status, p.fpc, p.info, p.fl, p.pc, p.regs[7])) =
    some (4, some 254, some 256, 0b00000001, 254, 0xF4) := by decide
/-- R73's forms; `SP` and a long name; a register that does not exist is no operand. -/
theorem test_assembly : assembleLine "LDI R0, 0x1D".toList = some (.ldi 0 29) ∧
    assembleLine "PUSH SP".toList = some (.push 7) ∧ assembleLine "LoadImmediate R0 8".toList = some (.ldi 0 8) ∧
    assembleLine "ADD R0, R8".toList = none := by decide

/-! ## Witnesses: each statement's hypotheses are met, clause by clause -/

theorem witness_DecodeRejectsEveryOtherOpcodeByte : operandCount 0xC0 = 3 ∧ operandCount 0xFF = 3 := by decide

theorem witness_DecodeReportsTheFirstMissingByte :
    1 ≤ operandCount 0x45 ∧ 1 ≤ operandCount 0xC0 ∧ 2 ≤ operandCount 0x82 ∧ 2 ≤ operandCount 0xFF := by decide

theorem witness_StepRunsTheDecodedInstruction :
    let s := start 253 [] [0x82, 3, 255]
    s.status = .running ∧
      ∀ k, k < (Instr.ldi 3 255).length → s.mem.read (s.pc + k) = (encode (.ldi 3 255))[k]? := by decide

theorem witness_FetchOperandReadAndDispatch_fetch :
    (start 256 [] []).status = .running ∧ (start 256 [] []).mem.size ≤ (start 256 [] []).pc := by decide

theorem witness_FetchOperandReadAndDispatch_a :
    let s := start 255 [] [0x47]
    s.status = .running ∧ s.mem.read s.pc = some 0x47 ∧ 1 ≤ operandCount 0x47 ∧ s.mem.size ≤ s.pc + 1 := by decide

theorem witness_FetchOperandReadAndDispatch_b :
    let s := start 254 [] [0xC2, 0]
    s.status = .running ∧ s.mem.read s.pc = some 0xC2 ∧ 2 ≤ operandCount 0xC2 ∧ s.pc + 1 < s.mem.size ∧
      s.mem.size ≤ s.pc + 2 := by decide

theorem witness_FetchOperandReadAndDispatch_dispatch :
    let s := start 253 [] [0xA0, 0, 1]
    s.status = .running ∧ s.mem.read s.pc = some 0xA0 ∧ (1 ≤ operandCount 0xA0 → s.mem.read (s.pc + 1) = some 0) ∧
      (2 ≤ operandCount 0xA0 → s.mem.read (s.pc + 2) = some 1) := by decide

theorem witness_UnknownInstructionIsFatal :
    let s := start 253 [] [0xC2, 0, 0]
    s.status = .running ∧ s.mem.read s.pc = some 0xC2 ∧ decodeOpcode 0xC2 = none ∧
      (1 ≤ operandCount 0xC2 → s.pc + 1 < s.mem.size) ∧ (2 ≤ operandCount 0xC2 → s.pc + 2 < s.mem.size) := by decide

/-- Also the hypotheses of the register checks in LdiLoadsItsLiteral, PrnAppendsTheRegister, AddWritesTheSum,
SubWritesTheDifference, MulWritesTheLowByteOfTheProduct, CmpWritesTheThreeFlags, PushStoresBelowTheStackPointer,
PopLoadsFromTheStackPointer, JmpSetsThePc, JeqJumpsExactlyWhenEqual, JneJumpsExactlyWhenNotEqual and
CallPushesTheReturnAddressAndJumps. -/
theorem witness_InvalidRegisterIsRaised :
    7 < (8 : Byte).toNat ∧ 7 < (255 : Byte).toNat ∧ (7 : Byte).toNat ≤ 7 := by decide

/-- An instruction with valid operands that faults otherwise, the hypotheses of the last clause. -/
theorem witness_InvalidRegisterIsRaised_only :
    (Instr.call 7).wellFormed = true ∧ (start 254 [] []).status = .running ∧
      ∃ t r, exec (.call 7) (start 254 [] []) = .next t ∧ t.status = .faulted r :=
  ⟨by decide, rfl, _, _, rfl, rfl⟩

theorem witness_CycleReportsTheFirstFaultInOrder :
    (start 0 [] [0x01]).status = .running ∧ expectedFault (start 0 [] [0x01]) = none ∧
      expectedFault (start 254 [] [0xC2, 0]) = some (.outOfBounds, 256) ∧
      expectedFault (start 0 [] [0xA0, 8, 9]) = some (.invalidRegister, 8) := by decide

theorem witness_FaultsArePrecise :
    ∃ t r, step State.reset = .next t ∧ t.status = .faulted r := ⟨_, _, rfl, rfl⟩

/-- Also the hypotheses of RunEndsExactlyWhenHaltedOrFaulted, of HostResetsOnlyAfterTheEnd and of the first two clauses
of StatusPortShowsTheFinalState. -/
theorem witness_ExactlyTheRunningMachineSteps :
    State.reset.status = .running ∧ State.reset.halt.status = .halted ∧
      (State.reset.takeFault .outOfBounds 256).status = .faulted ⟨.outOfBounds, 0, 256⟩ := by decide

theorem witness_PcIsUpdatedByLengthOrByTarget :
    (∃ t, exec (.jeq 3) (start 254 [] []) = .next t ∧ NotFaulted t) ∧
      ∃ t, exec (.jmp 3) (start 254 [] []) = .next t ∧ NotFaulted t :=
  ⟨⟨_, rfl, fun _ h => nomatch h⟩, ⟨_, rfl, fun _ h => nomatch h⟩⟩

theorem witness_JumpToItselfRunsForever :
    let s := start 5 [(0, 5)] [0x54, 0]
    s.status = .running ∧ s.mem.read s.pc = some 0x54 ∧ s.mem.read (s.pc + 1) = some (operandOf 0) ∧
      (s.regs[(0 : Reg)]).toNat = s.pc := by decide

theorem witness_SubWritesTheDifference : (0 : Reg) ≠ 7 := by decide

theorem witness_StackPointerWrapsModulo256 :
    (∃ t, exec (.push (operandOf 7)) (start 0 [(7, 0)] []) = .next t ∧ t.status = .running) ∧
      (∃ t, exec (.call (operandOf 0)) (start 253 [(7, 0)] []) = .next t ∧ t.status = .running) ∧
      (∃ t, exec (.pop (operandOf 6)) (start 0 [(7, 0xFF)] []) = .next t ∧ t.status = .running) ∧
      (∃ t, exec .ret (start 0 [(7, 0xFF)] []) = .next t ∧ t.status = .running) ∧
      (start 0 [(7, 0)] []).status = .running ∧ (start 0 [(7, 0)] []).sp = 0x00 ∧
      (start 0 [(7, 0xFF)] []).sp = 0xFF :=
  ⟨⟨_, rfl, rfl⟩, ⟨_, rfl, rfl⟩, ⟨_, rfl, rfl⟩, ⟨_, rfl, rfl⟩, rfl, rfl, rfl⟩

theorem witness_PushStoresBelowTheStackPointer :
    (startOf 0xF3 0 [] []).mem.size ≤ (startOf 0xF3 0 [] []).pushedSp.toNat ∧
      (startOf 0xF4 0 [] []).mem.wf = true ∧
      (startOf 0xF4 0 [] []).pushedSp.toNat < (startOf 0xF4 0 [] []).mem.size := by decide

theorem witness_PopLoadsFromTheStackPointer :
    (startOf 0xF4 0 [] []).mem.size ≤ ((startOf 0xF4 0 [] []).regs[7]).toNat ∧ (0 : Reg) ≠ 7 ∧
      (startOf 0xF5 0 [] []).mem.read ((startOf 0xF5 0 [] []).regs[7]).toNat = some 0 := by decide

theorem witness_WellFormedInstructionsCompleteIn256Cells :
    let s := start 253 [] []
    (Instr.call 7).wellFormed = true ∧ s.mem.size = 256 ∧ s.status = .running ∧ s.pc + 2 ≤ 255 := by decide

theorem witness_CallPushesTheReturnAddressAndJumps :
    255 < (start 254 [] []).pc + 2 ∧
      (let s := startOf 0xF3 253 [] []
       s.pc + 2 ≤ 255 ∧ s.mem.size ≤ s.pushedSp.toNat) ∧
      (let s := startOf 0xF4 253 [] []
       s.mem.wf = true ∧ s.pc + 2 ≤ 255 ∧ s.pushedSp.toNat < s.mem.size) := by decide

theorem witness_RetPopsThePc :
    (startOf 0xF4 0 [] []).mem.size ≤ ((startOf 0xF4 0 [] []).regs[7]).toNat ∧
      (startOf 0xF5 0 [] []).mem.read ((startOf 0xF5 0 [] []).regs[7]).toNat = some 0 := by decide

/-- With 128 cells and a target of 128: JMP, a taken JEQ and JNE; CALL; RET. -/
theorem witness_TargetBeyondMemoryFaultsAtTheNextFetch :
    (let s := startOf 0x80 0 [(0, 0x80)] []
     s.status = .running ∧ s.mem.size ≤ (s.regs[(0 : Reg)]).toNat ∧ s.fl.E = false ∧
       (withFlags false false true s).fl.E = true) ∧
      (let s := startOf 0x80 126 [(0, 0x80), (7, 0x80)] []
       s.status = .running ∧ s.mem.size ≤ (if (0 : Reg) = 7 then s.pushedSp else s.regs[(0 : Reg)]).toNat ∧
         s.pc + 2 ≤ 255 ∧ s.pushedSp.toNat < s.mem.size) ∧
      (let s := withByte 0x7F 0x80 (startOf 0x80 0 [(7, 0x7F)] [])
       s.status = .running ∧ s.mem.read (s.regs[7]).toNat = some 0x80 ∧ s.mem.size ≤ (0x80 : Byte).toNat) := by decide

/-- A PUSH and a CALL, the inner ones nested, and their matching POP and RET. -/
theorem witness_BalancedCodeKeepsTheStack :
    Balanced 2 [.push (operandOf 7), .call (operandOf 1), .ret, .pop (operandOf 2)] ∧
      ∃ t, Executes [.push (operandOf 7), .call (operandOf 1), .ret, .pop (operandOf 2)] (start 0 [] []) t :=
  ⟨.pushPop (body := [.call (operandOf 1), .ret]) (by decide) (.callRet (body := []) (.nil 0) (.nil 1)) (.nil 2),
    _, _, rfl, rfl, _, rfl, rfl, _, rfl, rfl, _, rfl, rfl, rfl⟩

theorem witness_PopRestoresWhatTheMatchingPushStored :
    (start 0 [] []).mem.wf = true ∧ (0 : Reg) ≠ 7 ∧ (6 : Reg) ≠ 7 ∧
      Balanced 255 [.call (operandOf 1), .ret] ∧
      ∃ t, Executes (.push (operandOf 0) :: ([.call (operandOf 1), .ret] ++ [.pop (operandOf 6)])) (start 0 [] []) t :=
  ⟨by decide, by decide, by decide, .callRet (body := []) (.nil 254) (.nil 255),
    _, _, rfl, rfl, _, rfl, rfl, _, rfl, rfl, _, rfl, rfl, rfl⟩

theorem witness_ReturnGoesBackBehindTheMatchingCall :
    (start 253 [] []).mem.wf = true ∧ Balanced 255 [.push (operandOf 7), .pop (operandOf 6)] ∧
      ∃ t, Executes (.call 7 :: ([.push (operandOf 7), .pop (operandOf 6)] ++ [.ret])) (start 253 [] []) t :=
  ⟨by decide, .pushPop (body := []) (by decide) (.nil 254) (.nil 255),
    _, _, rfl, rfl, _, rfl, rfl, _, rfl, rfl, _, rfl, rfl, rfl⟩

/-- Also the hypotheses of OnlyCompareWritesTheFlags, OnlyPushAndCallWriteMemory and OnlyPrnAppendsToTheOutput: an
instruction that writes a register and no flag, and an address that it does not store to. -/
theorem witness_OnlyListedRegistersChange :
    (∃ t, exec (.push 0) (start 0 [] []) = .next t) ∧ ¬ WritesReg 0 (.push 0) ∧ (∀ a b, Instr.push 0 ≠ .cmp a b) ∧
      storeAddress (start 0 [] []) (.push 0) ≠ some 0xF4 :=
  ⟨⟨_, rfl⟩, by simp [WritesReg], by simp, by decide⟩

theorem witness_LessAndGreaterAreNeverRead :
    eraseLG (withFlags true false true State.reset) = eraseLG (withFlags false true true State.reset) := by decide

theorem witness_MemoryPortFailsExactlyOutsideMemory : State.reset.mem.size ≤ 256 := by decide

theorem witness_ReadReturnsTheLatestWrite :
    (∃ s, (State.resetOfSize 1).hostLoad [0x01] = .ok s) ∧ (∃ s, (State.resetOfSize 256).hostLoad [] = .ok s) ∧
      ∀ w ∈ ([(0, 7), (0, 0)] : List (Nat × Byte)), w.1 < 1 :=
  ⟨⟨_, rfl⟩, ⟨_, rfl⟩, by decide⟩

/-- Two memories that were written differently and read alike. -/
theorem witness_CanonicalMemoriesAreDeterminedByReads :
    let m := (State.resetOfSize 2).mem
    m.wf = true ∧ ((m.place 1 [9]).place 1 [0]).wf = true ∧ m.size = ((m.place 1 [9]).place 1 [0]).size ∧
      ∀ a, a < 2 → m.read a = ((m.place 1 [9]).place 1 [0]).read a := by decide

/-- Program P7 before its PUSH, whose byte is the next opcode; a PUSH whose byte is the next instruction's operand B; and
a CALL R7 at the highest address that has a return address, whose return address 0xFF is the opcode fetched next. -/
theorem witness_PushedOpcodeIsExecutedNext :
    (let s := start 6 [(0, 0x01), (7, 9)] [0x45, 0]
     s.mem.wf = true ∧ s.status = .running ∧ s.pushedSp.toNat < s.mem.size ∧
       withStored s s.pushedSp.toNat 0x01 (s.pc + 2) = some 0x01 ∧ operandCount 0x01 = 0) ∧
      (let s := start 6 [(0, 0x2A), (7, 11)] [0x45, 0, 0x82, 3, 0]
       s.mem.wf = true ∧ s.status = .running ∧ s.pushedSp.toNat < s.mem.size ∧
         withStored s s.pushedSp.toNat 0x2A (s.pc + 2) = some 0x82 ∧
         withStored s s.pushedSp.toNat 0x2A (s.pc + 3) = some 3 ∧
         withStored s s.pushedSp.toNat 0x2A (s.pc + 4) = some 0x2A) ∧
      (let s := start 253 [] [0x50, 7]
       s.mem.wf = true ∧ s.status = .running ∧ s.pushedSp.toNat < s.mem.size ∧ s.pc + 2 ≤ 255 ∧
         withStored s s.pushedSp.toNat 0xFF s.pushedSp.toNat = some 0xFF ∧
         withStored s s.pushedSp.toNat 0xFF (s.pushedSp.toNat + 1) = some 0 ∧
         withStored s s.pushedSp.toNat 0xFF (s.pushedSp.toNat + 2) = some 0) := by decide

/-- The two ends of the range of memory sizes. -/
theorem witness_ResetMeetsTheInvariant : (1 ≤ 1 ∧ 1 ≤ 256) ∧ (1 ≤ 256 ∧ 256 ≤ 256) := by decide

theorem witness_StepKeepsTheInvariant :
    (start 253 [] [0x82, 0, 7]).mem.wf = true ∧ (start 253 [] [0x82, 0, 7]).pc ≤ 256 ∧
      (start 253 [] [0x82, 0, 7]).fl.atMostOne = true ∧
      (start 253 [] [0x82, 0, 7]).status.recordOk (start 253 [] [0x82, 0, 7]).pc = true ∧
      ∃ t, step (start 253 [] [0x82, 0, 7]) = .next t :=
  ⟨by decide, by decide, by decide, by decide, _, rfl⟩

theorem witness_RunsKeepTheInvariantAndTheOutput :
    State.reset.Inv ∧ ∃ t, Reaches 1 State.reset t :=
  ⟨⟨by decide, by decide, by decide, by decide⟩, _, rfl⟩

theorem witness_HostLoadPlacesTheImage : ([0xFF] : List Byte).length ≤ 1 ∧ ([] : List Byte).length ≤ 256 := by decide

theorem white_nil : White [] := fun _ h => nomatch h

theorem white_space : White [' '] := fun c h => by
  rw [List.mem_singleton] at h
  subst h
  decide

/-- Nine digits, and an inner space, are malformed; two retained lines are too many for one cell. -/
theorem witness_BadLoadsAreRefused :
    1 < ([1, 1] : List Byte).length ∧
      (LineHolds "000000010".toList " 000000010 # one".toList ∧ IsToken "000000010".toList ∧
        "000000010".toList.length ≠ 8) ∧
      (LineHolds "0000 000".toList "0000 000".toList ∧ IsToken "0000 000".toList ∧
        ∃ c ∈ "0000 000".toList, c ≠ '0' ∧ c ≠ '1') ∧
      (["00000001".toList, "00000001".toList].Sublist ["".toList, "00000001".toList, "00000001".toList] ∧
        (LineHolds "00000001".toList "00000001".toList ∧ IsToken "00000001".toList) ∧
        1 < ["00000001".toList, "00000001".toList].length) :=
  ⟨by decide,
    ⟨⟨[' '], [' '], "# one".toList, white_space, white_space, .inr rfl, rfl⟩,
      ⟨by decide, ⟨'0', rfl, rfl⟩, '0', rfl, rfl⟩, by decide⟩,
    ⟨⟨[], [], [], white_nil, white_nil, .inl rfl, rfl⟩,
      ⟨by decide, ⟨'0', rfl, rfl⟩, '0', rfl, rfl⟩, ' ', by decide, by decide, by decide⟩,
    ⟨by decide, ⟨⟨[], [], [], white_nil, white_nil, .inl rfl, rfl⟩,
      ⟨by decide, ⟨'0', rfl, rfl⟩, '1', rfl, rfl⟩⟩, by decide⟩⟩

/-- A line with a comment and one without, a comment alone, and a blank line. -/
theorem witness_LoaderReadsOneBytePerLine :
    LineHolds (binaryLine 0x82) "10000010 # LDI R0,8".toList ∧ LineHolds (binaryLine 0x00) "00000000".toList ∧
      LineHolds [] "# nothing".toList ∧ LineHolds [] "  ".toList :=
  ⟨⟨[], [' '], "# LDI R0,8".toList, white_nil, white_space, .inr rfl, rfl⟩,
    ⟨[], [], [], white_nil, white_nil, .inl rfl, rfl⟩,
    ⟨[], [], "# nothing".toList, white_nil, white_nil, .inr rfl, rfl⟩,
    ⟨[' '], [' '], [], white_space, white_space, .inl rfl, rfl⟩⟩

theorem witness_HostActsOnlyBeforeAndAfterTheRun :
    (∃ t, State.reset.hostLoad [0x01] = .ok t) ∧ (∃ t, step State.reset = .next t) ∧
      (∃ t, Reaches (0 + 1) (start 0 [] [0x01]) t) ∧ State.reset.status = .running :=
  ⟨⟨_, rfl⟩, ⟨_, rfl⟩, ⟨_, rfl⟩, rfl⟩

theorem witness_StatusPortShowsTheFinalState :
    let s := { State.reset with pc := 256, status := faulted .outOfBounds 256 256 }
    s.Inv ∧ s.status = .faulted ⟨.outOfBounds, 256, 256⟩ ∧ ∃ p, s.statusPort = some p :=
  ⟨⟨by decide, by decide, by decide, by decide⟩, rfl, _, rfl⟩

theorem witness_ExitCodeIsZeroExactlyOnHalt :
    (FaultRecord.mk .outOfBounds 0 0).kind ≠ (FaultRecord.mk .invalidRegister 0 8).kind := by decide

theorem witness_AssemblyRoundTrip : (Instr.add 7 7).wellFormed = true ∧ (Instr.ldi 0 255).wellFormed = true := by decide

end Sys2Proof.Tests
end

section
/-! SUPPORT. O60: a step leaves a CORE that the host can load no more, since it writes a trace into the status, the
memory or the pc (log entry 14). -/

namespace Sys2Proof.Machine

/-! ## A step never leads to a state as reset left it -/

/-- With no cell listed, the byte at pc is missing or is 0x00, which is no opcode, so no instruction runs (R66, R82,
R85; the reset CORE of vector P6a). -/
theorem cycle_raises_of_cells_nil (run : Instr → State → Result) {s : State} (h : s.mem.cells = []) :
    ∃ kind info, cycle run s = raise kind info s := by
  by_cases hp : s.pc < s.mem.size
  · have h0 : s.mem.read s.pc = some 0 := by rw [Memory.read_of_lt hp, h]; rfl
    have no_operands : operandCount 0 = 0 := by decide
    exact ⟨_, _, cycle_of_bytes run (a := 0) (b := 0) h0 (fun hc => by omega) (fun hc => by omega)⟩
  · exact ⟨_, _, withFetched_of_ge (by omega) _⟩

/-- An instruction that was fetched from a listed cell keeps a cell listed, but for PUSH, which may store 0x00 over the
last one and advances the pc; the return address that CALL stores is never 0. -/
theorem Completes.ne_resetOfSize {s t : State} {i : Instr} (hmem : s.mem.cells ≠ []) (h : Completes s i t) (n : Nat) :
    t ≠ State.resetOfSize n := by
  intro e
  have hcells : t.mem.cells = [] := congrArg (fun u : State => u.mem.cells) e
  cases h with
  | push a r m _ _ => exact absurd (congrArg State.pc e) (Nat.succ_ne_zero _)
  | call a r m _ hret hm =>
    obtain ⟨-, rfl⟩ := Memory.write_cases hm
    have hv : BitVec.ofNat 8 (s.pc + 2) ≠ 0 := by bv_omega
    exact cellsSet_ne_nil _ hv _ hcells
  | _ => exact hmem hcells

theorem State.takeFault_ne_resetOfSize (s : State) (kind : FaultKind) (info n : Nat) :
    s.takeFault kind info ≠ State.resetOfSize n :=
  fun e => nomatch congrArg State.status e

/-- No step leads to a state as reset left it, from whatever state it is taken. -/
theorem step_ne_resetOfSize {s t : State} (h : step s = .next t) (n : Nat) : t ≠ State.resetOfSize n := by
  rw [step_of_running (running_of_step_next h)] at h
  have raised : ∀ {kind info}, cycle exec s = raise kind info s → t ≠ State.resetOfSize n := fun e => by
    rw [h] at e
    injection e with e
    exact e ▸ s.takeFault_ne_resetOfSize _ _ n
  by_cases hmem : s.mem.cells = []
  · obtain ⟨_, _, e⟩ := cycle_raises_of_cells_nil exec hmem
    exact raised e
  obtain ⟨_, _, -, e⟩ | ⟨i, -, e⟩ := cycle_cases exec s
  · exact raised e
  obtain hc | ⟨kind, info, -, rfl⟩ := exec_cases (e ▸ h)
  · exact hc.ne_resetOfSize hmem n
  · exact s.takeFault_ne_resetOfSize kind info n

/-- A run that has taken a step ends with one. -/
theorem Reaches.last_step {k : Nat} {s t : State} (h : Reaches (k + 1) s t) : ∃ u, step u = .next t := by
  obtain ⟨u, -, hu⟩ := (reaches_add k 1 s t).1 h
  obtain ⟨v, hv, h0⟩ := (reaches_succ 0 u t).1 hu
  exact ⟨u, (reaches_zero v t).1 h0 ▸ hv⟩

/-! ## The host's ports -/

/-- The host loads only a CORE as reset left it (R7, R201). -/
theorem State.eq_resetOfSize_of_hostLoad {s t : State} {img : List Byte} (h : s.hostLoad img = .ok t) :
    s = State.resetOfSize s.mem.size := by
  by_contra hne
  rw [State.hostLoad_of_ne hne] at h
  cases h

/-- A CORE that has taken a step is never loaded (R7, R201; D24). -/
theorem hostLoad_after_step {s t : State} (h : step s = .next t) (img : List Byte) :
    t.hostLoad img = .error .notAtReset :=
  State.hostLoad_of_ne (step_ne_resetOfSize h _) img

theorem State.hostReset_of_running {s : State} (h : s.status = .running) : s.hostReset = none := by
  simp [State.hostReset, h, RunStatus.ended]

theorem State.statusPort_of_running {s : State} (h : s.status = .running) : s.statusPort = none := by
  simp [State.statusPort, h, RunStatus.ended]

end Sys2Proof.Machine

namespace Sys2Proof.Claims

open Sys2Proof.Machine

/-- Settles O60: the load asks for a CORE as reset left it, and no step leads to one. -/
theorem hostActsOnlyBeforeAndAfterTheRun : Obligations.HostActsOnlyBeforeAndAfterTheRun := by
  refine ⟨fun _ _ _ => State.eq_resetOfSize_of_hostLoad, fun _ _ img h => hostLoad_after_step h img,
    fun k s t img h => ?_, fun _ h => ⟨State.hostReset_of_running h, State.statusPort_of_running h⟩⟩
  obtain ⟨_, hu⟩ := h.last_step
  exact hostLoad_after_step hu img

end Sys2Proof.Claims
end

section
/-! SUPPORT. What completing an instruction writes, field by field, and one inversion lemma for a step. -/

namespace Sys2Proof.Machine

/-! ## Field by field -/

/-- Only CMP writes FL (R29). -/
theorem Completes.fl_eq {s t : State} {i : Instr} (h : Completes s i t) (hi : ∀ a b, i ≠ .cmp a b) : t.fl = s.fl := by
  cases h with
  | cmp a b => exact absurd rfl (hi a b)
  | _ => rfl

/-- FL is as before, or what a Compare computes (R29, R125). -/
theorem Completes.fl_cases {s t : State} {i : Instr} (h : Completes s i t) :
    t.fl = s.fl ∨ ∃ x y, t.fl = compareFlags x y := by
  cases h with
  | cmp a b ra rb => exact .inr ⟨s.reg ra, s.reg rb, rfl⟩
  | _ => exact .inl rfl

/-- Only PRN writes the output log, by one byte at its end (R30, R102). -/
theorem Completes.out_cases {s t : State} {i : Instr} (h : Completes s i t) :
    t.out = s.out ∨ ∃ r, i = .prn (operandOf r) ∧ t.out = s.out ++ [s.reg r] := by
  cases h with
  | prn a r ha => exact .inr ⟨r, ha ▸ rfl, rfl⟩
  | _ => exact .inl rfl

/-- Memory is as before, or is what one write through the port leaves (R43). -/
theorem Completes.mem_cases {s t : State} {i : Instr} (h : Completes s i t) :
    t.mem = s.mem ∨ ∃ a v, s.mem.write a v = some t.mem := by
  cases h with
  | push a r m _ hm => exact .inr ⟨_, _, hm⟩
  | call a r m _ _ hm => exact .inr ⟨_, _, hm⟩
  | _ => exact .inl rfl

/-- Only HLT writes the run status (R31). -/
theorem Completes.status_cases {s t : State} {i : Instr} (h : Completes s i t) :
    t.status = s.status ∨ t.status = .halted := by
  cases h with
  | hlt => exact .inr rfl
  | _ => exact .inl rfl

/-- The pc becomes a byte, the target, or the address behind the instruction (R88, R160). -/
theorem Completes.pc_cases {s t : State} {i : Instr} (h : Completes s i t) :
    (∃ v : Byte, t.pc = v.toNat) ∨ t.pc = s.pc + i.length := by
  cases h with
  | ret v => exact .inl ⟨v, rfl⟩
  | call a r => exact .inl ⟨(s.setSp s.pushedSp).reg r, rfl⟩
  | jmp a r => exact .inl ⟨s.reg r, rfl⟩
  | jeq a r =>
    cases hE : s.fl.E with
    | true => exact .inl ⟨s.reg r, rfl⟩
    | false => exact .inr rfl
  | jne a r =>
    cases hE : s.fl.E with
    | true => exact .inr rfl
    | false => exact .inl ⟨s.reg r, rfl⟩
  | _ => exact .inr rfl

/-! ## The step -/

/-- The inversion lemma of `step`: it was taken while RUNNING, and an instruction that lies in memory completed, or a
fault was taken (R90). -/
theorem step_cases {s t : State} (h : step s = .next t) :
    s.status = .running ∧
    ((∃ i, s.pc + i.length ≤ s.mem.size ∧ Completes s i t) ∨
      ∃ kind info, (info ≤ 255 ∨ info ≤ s.mem.size ∨ info = s.pc) ∧ t = s.takeFault kind info) := by
  have hrun := running_of_step_next h
  rw [step_of_running hrun] at h
  refine ⟨hrun, ?_⟩
  obtain ⟨kind, info, hinfo, e⟩ | ⟨i, hi, e⟩ := cycle_cases exec s
  · rw [e] at h
    injection h with h
    exact .inr ⟨kind, info, hinfo, h.symm⟩
  · obtain hc | ⟨kind, info, hinfo, ht⟩ := exec_cases (e ▸ h)
    · exact .inl ⟨i, hi, hc⟩
    · exact .inr ⟨kind, info, by omega, ht⟩

/-- From RUNNING there is a step (R80). -/
theorem step_next_of_running {s : State} (h : s.status = .running) : ∃ t, step s = .next t := by
  rw [step_of_running h]
  obtain ⟨_, _, -, e⟩ | ⟨i, -, e⟩ := cycle_cases exec s
  · exact ⟨_, e⟩
  · rw [e]
    exact exec_next i s

end Sys2Proof.Machine
end

section
/-! SUPPORT. O13, O49, O50, O51, O52: when there is a step, and the invariant: it holds at reset, every step keeps it, and so
every run does. -/

namespace Sys2Proof.Machine

theorem State.resetOfSize_inv {n : Nat} (h1 : 1 ≤ n) (h2 : n ≤ 256) : (State.resetOfSize n).Inv :=
  ⟨Memory.wf_empty h1 h2, Nat.zero_le _, rfl, rfl⟩

theorem State.Inv.pc_le {s : State} (h : s.Inv) : s.pc ≤ 256 := h.2.1

theorem State.Inv.mem_size_le {s : State} (h : s.Inv) : s.mem.size ≤ 256 := ((Memory.wf_iff _).1 h.1).2.1

/-- Completing an instruction that lies in memory keeps the invariant: the pc that advances stays within memory. -/
theorem Completes.inv {s t : State} {i : Instr} (h : Completes s i t) (hs : s.Inv) (hrun : s.status = .running)
    (hi : s.pc + i.length ≤ s.mem.size) : t.Inv := by
  have hsize := hs.mem_size_le
  obtain ⟨hmem, -, hfl, -⟩ := hs
  refine ⟨?_, ?_, ?_, ?_⟩
  · obtain e | ⟨a, v, hw⟩ := h.mem_cases
    · rwa [e]
    · exact Memory.write_wf hmem hw
  · obtain ⟨v, e⟩ | e := h.pc_cases
    · rw [e]
      exact v.isLt.le
    · omega
  · obtain e | ⟨x, y, e⟩ := h.fl_cases
    · rwa [e]
    · rw [e]
      exact compareFlags_atMostOne x y
  · obtain e | e := h.status_cases
    · rw [e, hrun]
      rfl
    · rw [e]
      rfl

/-- Taking a fault keeps the invariant: the record names pc (R32, R184). -/
theorem State.takeFault_inv {s : State} {info : Nat} (hs : s.Inv) (kind : FaultKind) (hinfo : info ≤ 256) :
    (s.takeFault kind info).Inv := by
  obtain ⟨hmem, hpc, hfl, -⟩ := hs
  exact ⟨hmem, hpc, hfl, by simp [RunStatus.recordOk, hinfo]⟩

theorem step_inv {s t : State} (hs : s.Inv) (h : step s = .next t) : t.Inv := by
  obtain ⟨hrun, ⟨i, hi, hc⟩ | ⟨kind, info, hinfo, rfl⟩⟩ := step_cases h
  · exact hc.inv hs hrun hi
  · have hpc := hs.pc_le
    have hsize := hs.mem_size_le
    exact State.takeFault_inv hs kind (by omega)

/-- No step changes the length of memory (R53). -/
theorem step_mem_size {s t : State} (h : step s = .next t) : t.mem.size = s.mem.size := by
  obtain ⟨-, ⟨i, -, hc⟩ | ⟨kind, info, -, rfl⟩⟩ := step_cases h
  · obtain e | ⟨a, v, hw⟩ := hc.mem_cases
    · rw [e]
    · exact Memory.write_size hw
  · rfl

/-- A step keeps what was emitted (R30). -/
theorem step_out_prefix {s t : State} (h : step s = .next t) : s.out <+: t.out := by
  obtain ⟨-, ⟨i, -, hc⟩ | ⟨kind, info, -, rfl⟩⟩ := step_cases h
  · obtain e | ⟨r, -, e⟩ := hc.out_cases
    · rw [e]
    · rw [e]
      exact List.prefix_append _ _
  · exact List.prefix_rfl

end Sys2Proof.Machine

namespace Sys2Proof.Claims

open Sys2Proof.Machine

/-- Settles O50, by the inversion of a step: an instruction completes, or a fault is taken. -/
theorem stepKeepsTheInvariant : Obligations.StepKeepsTheInvariant := fun _ _ => step_inv

/-- Settles O51: each step keeps the three facts about the state the run began in. -/
theorem runsKeepTheInvariantAndTheOutput : Obligations.RunsKeepTheInvariantAndTheOutput := by
  intro k s t hs h
  refine reaches_invariant (P := fun u => u.Inv ∧ u.mem.size = s.mem.size ∧ s.out <+: u.out) ?_
    ⟨hs, rfl, List.prefix_rfl⟩ h
  rintro u v ⟨hinv, hsize, hout⟩ huv
  exact ⟨step_inv hinv huv, (step_mem_size huv).trans hsize, hout.trans (step_out_prefix huv)⟩

/-- Settles O49: memory is empty, hence canonical, and every other field is at its bound's low end. -/
theorem resetMeetsTheInvariant : Obligations.ResetMeetsTheInvariant :=
  ⟨State.resetOfSize_inv (by decide) (by decide), fun _ => State.resetOfSize_inv⟩

/-- Settles O52, field by field. -/
theorem resetValues : Obligations.ResetValues :=
  ⟨by decide, rfl, rfl, rfl, rfl, rfl, fun _ => rfl⟩

/-- Settles O13: a RUNNING cycle always answers a next state, and the other two run statuses have no step. -/
theorem exactlyTheRunningMachineSteps : Obligations.ExactlyTheRunningMachineSteps :=
  fun _ => ⟨⟨step_next_of_running, fun ⟨_, h⟩ => running_of_step_next h⟩, step_of_halted, fun _ => step_of_faulted⟩

end Sys2Proof.Claims
end

section
/-! SUPPORT. O26, O39, O40, O42: what an instruction leaves in SP, in the other registers, in FL and in the output log. -/

namespace Sys2Proof.Machine

/-- An instruction that leaves a RUNNING state RUNNING has completed: a fault would have ended the run (R184). -/
theorem completes_of_exec_running {i : Instr} {s t : State} (h : exec i s = .next t) (ht : t.status = .running) :
    Completes s i t := by
  obtain hc | ⟨kind, info, -, rfl⟩ := exec_cases h
  · exact hc
  · cases ht

/-- PUSH and CALL leave the decremented SP, and write memory at that address alone (R43, R140). -/
theorem Completes.push_or_call {s t : State} {i : Instr} {a : Byte} (h : Completes s i t)
    (hi : i = .push a ∨ i = .call a) : t.sp = s.pushedSp ∧ ∃ v, s.mem.write s.pushedSp.toNat v = some t.mem := by
  cases h with
  | push _ r m _ hm => exact ⟨s.setReg_reg_same _ _, _, hm⟩
  | call _ r m _ _ hm => exact ⟨s.setReg_reg_same _ _, _, hm⟩
  | _ => simp at hi

/-- POP into a register other than R7 leaves there the byte at SP, and then the incremented SP (R142). -/
theorem Completes.pop_reg {s t : State} {r : Reg} (h : Completes s (.pop (operandOf r)) t) (hr : r ≠ Config.spIndex) :
    t.sp = s.poppedSp ∧ s.mem.read s.sp.toNat = some (t.reg r) := by
  cases h with
  | pop _ q v hq hv =>
    obtain rfl := operandOf_injective hq
    refine ⟨?_, ?_⟩
    · calc ((s.setReg r v).setSp (s.setReg r v).poppedSp).sp
        _ = (s.setReg r v).sp + 1 := State.setReg_reg_same _ _ _
        _ = s.poppedSp := by rw [State.setReg_sp, if_neg hr]; rfl
    · simpa [State.setReg_reg_other _ _ hr] using hv

/-- RET leaves the incremented SP, and the byte at the old SP in pc (R165). -/
theorem Completes.ret_sp_pc {s t : State} (h : Completes s .ret t) :
    t.sp = s.poppedSp ∧ ∃ v, s.mem.read s.sp.toNat = some v ∧ t.pc = v.toNat := by
  cases h with
  | ret v hv => exact ⟨s.setReg_reg_same _ _, v, hv, rfl⟩

/-- A register whose row of R25 lists no write keeps its value. -/
theorem Completes.reg_eq {s t : State} {i : Instr} {r : Reg} (h : Completes s i t) (hr : ¬ Claims.WritesReg r i) :
    t.reg r = s.reg r := by
  have other : ∀ {u : State} {q : Reg} {v : Byte}, operandOf q ≠ operandOf r → (u.setReg q v).reg r = u.reg r :=
    fun hq => State.setReg_reg_other _ _ fun e => hq (e ▸ rfl)
  cases h with
  | ret v => exact State.setReg_reg_other _ _ hr
  | push a q m => exact State.setReg_reg_other _ _ hr
  | call a q m => exact State.setReg_reg_other _ _ hr
  | pop a q v ha =>
    obtain ⟨hq, h7⟩ := not_or.1 hr
    exact (State.setReg_reg_other _ _ h7).trans (other (ha ▸ hq))
  | ldi a imm q ha => exact other (ha ▸ hr)
  | add a b q q' ha => exact other (ha ▸ hr)
  | sub a b q q' ha => exact other (ha ▸ hr)
  | mul a b q q' ha => exact other (ha ▸ hr)
  | _ => rfl

end Sys2Proof.Machine

namespace Sys2Proof.Claims

open Sys2Proof.Machine

theorem regAt_operandOf (s : State) (r : Reg) : regAt s (operandOf r) = s.reg r := by
  simp [regAt, operandOf_toNat, State.reg]

/-- Settles O39: a completed instruction keeps the registers its row does not list, and a fault keeps all. -/
theorem onlyListedRegistersChange : Obligations.OnlyListedRegistersChange := by
  intro i s t r h hr
  obtain hc | ⟨kind, info, -, rfl⟩ := exec_cases h
  · exact hc.reg_eq hr
  · rfl

/-- Settles O40: a completed instruction other than CMP keeps FL, and so does a fault. -/
theorem onlyCompareWritesTheFlags : Obligations.OnlyCompareWritesTheFlags := by
  intro i s t h hi
  obtain hc | ⟨kind, info, -, rfl⟩ := exec_cases h
  · exact hc.fl_eq hi
  · rfl

/-- Settles O42: PRN that completes appends its register's byte; all else, a fault included, keeps the log. -/
theorem onlyPrnAppendsToTheOutput : Obligations.OnlyPrnAppendsToTheOutput := by
  intro i s t h
  obtain hc | ⟨kind, info, -, rfl⟩ := exec_cases h
  · refine hc.out_cases.imp_right ?_
    rintro ⟨r, hi, hout⟩
    exact ⟨operandOf r, hi, by rw [regAt_operandOf, hout]⟩
  · exact .inl rfl

/-- Settles O26: PUSH and CALL leave `pushedSp`, POP and RET `poppedSp`, both sums modulo 256. -/
theorem stackPointerWrapsModulo256 : Obligations.StackPointerWrapsModulo256 := by
  refine ⟨fun i r s t hi h _ ht => ?_, fun r s t hr h _ ht => ?_, fun s t h _ ht => ?_⟩
  · obtain ⟨hsp, v, hw⟩ := (completes_of_exec_running h ht).push_or_call hi
    rw [hsp]
    exact ⟨pushedSp_toNat s, fun h0 => by simp [State.pushedSp, h0], fun x hx => Memory.read_write_other hw hx⟩
  · obtain ⟨hsp, hv⟩ := (completes_of_exec_running h ht).pop_reg hr
    rw [hsp]
    exact ⟨poppedSp_toNat s, fun hff => by simp [State.poppedSp, hff], hv⟩
  · obtain ⟨hsp, hv⟩ := (completes_of_exec_running h ht).ret_sp_pc
    rw [hsp]
    exact ⟨poppedSp_toNat s, fun hff => by simp [State.poppedSp, hff], hv⟩

end Sys2Proof.Claims
end

section
/-! SUPPORT. O43, O44: a step cannot tell apart two states that agree in all that the meanings read, which the output log
and the flags L and G are not (R29, R30). One relational lemma per shared operation, then one for `exec` and `step`. -/

namespace Sys2Proof.Machine

/-! ## Relations that a step cannot see -/

/-- Related states agree in everything that a cycle reads, and every update of the state, done to both, keeps them
related. -/
structure Unseen (R : State → State → Prop) : Prop where
  regs {s s' : State} : R s s' → s'.regs = s.regs
  pc {s s' : State} : R s s' → s'.pc = s.pc
  equal {s s' : State} : R s s' → s'.fl.E = s.fl.E
  mem {s s' : State} : R s s' → s'.mem = s.mem
  status {s s' : State} : R s s' → s'.status = s.status
  setReg {s s' : State} (r : Reg) (v : Byte) : R s s' → R (s.setReg r v) (s'.setReg r v)
  setFlags {s s' : State} (f : Flags) : R s s' → R (s.setFlags f) (s'.setFlags f)
  setMem {s s' : State} (m : Memory) : R s s' → R (s.setMem m) (s'.setMem m)
  emit {s s' : State} (v : Byte) : R s s' → R (s.emit v) (s'.emit v)
  halt {s s' : State} : R s s' → R s.halt s'.halt
  setPc {s s' : State} (n : Nat) : R s s' → R (s.setPc n) (s'.setPc n)
  takeFault {s s' : State} (kind : FaultKind) (info : Nat) : R s s' → R (s.takeFault kind info) (s'.takeFault kind info)

/-- Two answers of a step: related next states, or the same stop. -/
inductive Related (R : State → State → Prop) : Result → Result → Prop
  | next {t t' : State} (h : R t t') : Related R (.next t) (.next t')
  | fault (f : Fault) : Related R (.fault f) (.fault f)

namespace Unseen

variable {R : State → State → Prop} (hR : Unseen R) {s s' : State} (h : R s s')
include hR h

/-! ## What is read -/

theorem reg (r : Reg) : s'.reg r = s.reg r := by rw [State.reg, hR.regs h, State.reg]

theorem sp : s'.sp = s.sp := hR.reg h _

theorem pushedSp : s'.pushedSp = s.pushedSp := by rw [State.pushedSp, hR.sp h, State.pushedSp]

theorem poppedSp : s'.poppedSp = s.poppedSp := by rw [State.poppedSp, hR.sp h, State.poppedSp]

/-! ## The shared operations -/

theorem related_raise (kind : FaultKind) (info : Nat) : Related R (raise kind info s) (raise kind info s') :=
  .next (hR.takeFault kind info h)

theorem related_finish (len : Nat) (u : PcUpdate) : Related R (finish len u s) (finish len u s') := by
  rw [finish, finish, hR.pc h]
  exact .next (hR.setPc _ h)

theorem related_withReg (v : Byte) {k k' : Reg → Result} (hk : ∀ r, Related R (k r) (k' r)) :
    Related R (withReg v s k) (withReg v s' k') := by
  unfold withReg
  cases regOf v with
  | some r => exact hk r
  | none => exact hR.related_raise h _ _

theorem related_withRegs (a b : Byte) {k k' : Reg → Reg → Result} (hk : ∀ ra rb, Related R (k ra rb) (k' ra rb)) :
    Related R (withRegs a b s k) (withRegs a b s' k') :=
  hR.related_withReg h a fun ra => hR.related_withReg h b fun rb => hk ra rb

theorem related_withRead (a : Nat) {k k' : Byte → Result} (hk : ∀ v, Related R (k v) (k' v)) :
    Related R (withRead a s k) (withRead a s' k') := by
  unfold withRead
  rw [hR.mem h]
  cases s.mem.read a with
  | some v => exact hk v
  | none => exact hR.related_raise h _ _

theorem related_withWrite (a : Nat) (v : Byte) {k k' : Memory → Result} (hk : ∀ m, Related R (k m) (k' m)) :
    Related R (withWrite a v s k) (withWrite a v s' k') := by
  unfold withWrite
  rw [hR.mem h]
  cases s.mem.write a v with
  | some m => exact hk m
  | none => exact hR.related_raise h _ _

/-! ## The meanings -/

theorem related_execArith (f : Byte → Byte → Byte) (a b : Byte) :
    Related R (execArith f a b s) (execArith f a b s') := by
  refine hR.related_withRegs h a b fun ra rb => ?_
  rw [hR.reg h, hR.reg h]
  exact hR.related_finish (hR.setReg _ _ h) _ _

theorem related_execPush (a : Byte) : Related R (execPush a s) (execPush a s') := by
  refine hR.related_withReg h a fun ra => ?_
  dsimp only
  have moved := hR.setReg Config.spIndex s.pushedSp h
  rw [hR.pushedSp h, State.setSp_eq_setReg, State.setSp_eq_setReg, hR.reg moved]
  exact hR.related_withWrite h _ _ fun m => hR.related_finish (hR.setMem m moved) _ _

theorem related_execPop (a : Byte) : Related R (execPop a s) (execPop a s') := by
  refine hR.related_withReg h a fun ra => ?_
  rw [hR.sp h]
  refine hR.related_withRead h _ fun v => ?_
  dsimp only
  have loaded := hR.setReg ra v h
  rw [hR.poppedSp loaded]
  exact hR.related_finish (hR.setReg _ _ loaded) _ _

theorem related_execCall (a : Byte) : Related R (execCall a s) (execCall a s') := by
  refine hR.related_withReg h a fun ra => ?_
  dsimp only
  have moved := hR.setReg Config.spIndex s.pushedSp h
  have hret : s'.returnAddress = s.returnAddress := congrArg (· + 2) (hR.pc h)
  rw [hR.pushedSp h, hret, State.setSp_eq_setReg, State.setSp_eq_setReg, hR.reg moved]
  split
  · exact hR.related_withWrite h _ _ fun m => hR.related_finish (hR.setMem m moved) _ _
  · exact hR.related_raise h _ _

theorem related_execRet : Related R (execRet s) (execRet s') := by
  unfold execRet
  rw [hR.sp h, hR.poppedSp h]
  exact hR.related_withRead h _ fun t => hR.related_finish (hR.setReg _ _ h) _ _

/-- Every meaning answers related states with related states. -/
theorem related_exec (i : Instr) : Related R (exec i s) (exec i s') := by
  cases i with
  | hlt => exact hR.related_finish (hR.halt h) _ _
  | ret => exact hR.related_execRet h
  | push a => exact hR.related_execPush h a
  | pop a => exact hR.related_execPop h a
  | call a => exact hR.related_execCall h a
  | add a b => exact hR.related_execArith h _ a b
  | sub a b => exact hR.related_execArith h _ a b
  | mul a b => exact hR.related_execArith h _ a b
  | prn a =>
    refine hR.related_withReg h a fun ra => ?_
    rw [hR.reg h]
    exact hR.related_finish (hR.emit _ h) _ _
  | jmp a =>
    refine hR.related_withReg h a fun ra => ?_
    rw [hR.reg h]
    exact hR.related_finish h _ _
  | jeq a =>
    refine hR.related_withReg h a fun ra => ?_
    rw [hR.reg h, hR.equal h]
    exact hR.related_finish h _ _
  | jne a =>
    refine hR.related_withReg h a fun ra => ?_
    rw [hR.reg h, hR.equal h]
    exact hR.related_finish h _ _
  | ldi a imm => exact hR.related_withReg h a fun ra => hR.related_finish (hR.setReg _ _ h) _ _
  | cmp a b =>
    refine hR.related_withRegs h a b fun ra rb => ?_
    rw [hR.reg h, hR.reg h]
    exact hR.related_finish (hR.setFlags _ h) _ _

/-! ## The cycle and the step -/

theorem related_withFetched {k k' : List Byte → Result} (hk : ∀ bytes, Related R (k bytes) (k' bytes)) :
    Related R (withFetched s k) (withFetched s' k') := by
  unfold withFetched
  rw [hR.pc h]
  refine hR.related_withRead h _ fun op => ?_
  split
  · exact hk _
  refine hR.related_withRead h _ fun a => ?_
  split
  · exact hk _
  exact hR.related_withRead h _ fun b => hk _

theorem related_withDecoded (bytes : List Byte) {k k' : Instr → Result} (hk : ∀ i, Related R (k i) (k' i)) :
    Related R (withDecoded bytes s k) (withDecoded bytes s' k') := by
  unfold withDecoded
  rw [hR.pc h]
  split
  · exact hk _
  · exact hR.related_raise h _ _
  · exact hR.related_raise h _ _

/-- A step from related states answers related states, or stops both times for the same reason. -/
theorem related_step : Related R (step s) (step s') := by
  have hstatus := hR.status h
  cases hs : s.status with
  | running =>
    rw [step_of_running hs, step_of_running (hstatus.trans hs)]
    exact hR.related_withFetched h fun bytes => hR.related_withDecoded h bytes fun i => hR.related_exec h i
  | halted =>
    rw [step_of_halted hs, step_of_halted (hstatus.trans hs)]
    exact .fault _
  | faulted r =>
    rw [step_of_faulted hs, step_of_faulted (hstatus.trans hs)]
    exact .fault _

end Unseen

end Sys2Proof.Machine

namespace Sys2Proof.Claims

open Sys2Proof.Machine

/-- The state with `before` in front of its output log. -/
def withOutBefore (before : List Byte) (s : State) : State := { s with out := before ++ s.out }

/-- A step cannot see what stands in front of the output log (R30). -/
theorem unseen_withOutBefore (before : List Byte) : Unseen fun s s' => s' = withOutBefore before s where
  regs := by rintro s _ rfl; rfl
  pc := by rintro s _ rfl; rfl
  equal := by rintro s _ rfl; rfl
  mem := by rintro s _ rfl; rfl
  status := by rintro s _ rfl; rfl
  setReg r v := by rintro rfl; rfl
  setFlags f := by rintro rfl; rfl
  setMem m := by rintro rfl; rfl
  emit v := by rintro rfl; simp [withOutBefore, State.emit]
  halt := by rintro s _ rfl; rfl
  setPc n := by rintro rfl; rfl
  takeFault kind info := by rintro rfl; rfl

/-- Related answers under a view are the answer and its view. -/
theorem eq_mapNext_of_related {view : State → State} {r r' : Result} (h : Related (fun t t' => t' = view t) r r') :
    r' = mapNext view r := by
  cases h with
  | next h => exact congrArg Host.Outcome.next h
  | fault f => rfl

/-- Settles O43: the log is written by PRN alone, at its end, and read by nothing. -/
theorem outputIsNeverRead : Obligations.OutputIsNeverRead :=
  fun _ before => eq_mapNext_of_related ((unseen_withOutBefore before).related_step rfl)

/-- A step cannot see what L and G hold (R29). -/
theorem unseen_eraseLG : Unseen fun s s' => eraseLG s = eraseLG s' where
  regs h := (congrArg State.regs h).symm
  pc h := (congrArg State.pc h).symm
  equal h := (congrArg (fun u : State => u.fl.E) h).symm
  mem h := (congrArg State.mem h).symm
  status h := (congrArg State.status h).symm
  setReg r v h := congrArg (fun u => u.setReg r v) h
  setFlags f h := congrArg (fun u => u.setFlags ⟨false, false, f.E⟩) h
  setMem m h := congrArg (fun u => u.setMem m) h
  emit v h := congrArg (fun u => u.emit v) h
  halt h := congrArg State.halt h
  setPc n h := congrArg (fun u => u.setPc n) h
  takeFault kind info h := congrArg (fun u => u.takeFault kind info) h

/-- Answers whose states look the same under a view are the same under it. -/
theorem mapNext_eq_of_related {view : State → State} {r r' : Result}
    (h : Related (fun t t' => view t = view t') r r') : mapNext view r = mapNext view r' := by
  cases h with
  | next h => exact congrArg Host.Outcome.next h
  | fault f => rfl

/-- Settles O44: E is the one flag that a meaning reads, in JEQ and JNE. -/
theorem lessAndGreaterAreNeverRead : Obligations.LessAndGreaterAreNeverRead :=
  fun _ _ h => mapNext_eq_of_related (unseen_eraseLG.related_step h)

end Sys2Proof.Claims
end

section
/-! SUPPORT. O41, O45, O46, O47, O48: the memory port as the statements see it, memories that read alike, and the fetch
that follows a store. -/

namespace Sys2Proof.Machine

open Sys2Proof.Claims

/-! ## The memory port -/

/-- A read fails exactly outside [0, N) (R42). -/
theorem Memory.read_eq_none_iff (m : Memory) (a : Nat) : m.read a = none ↔ m.size ≤ a := by
  refine ⟨fun h => ?_, Memory.read_of_ge⟩
  by_contra hlt
  rw [Memory.read_of_lt (Nat.not_le.mp hlt)] at h
  cases h

/-- A write fails exactly outside [0, N) (R42). -/
theorem Memory.write_eq_none_iff (m : Memory) (a : Nat) (v : Byte) : m.write a v = none ↔ m.size ≤ a := by
  refine ⟨fun h => ?_, Memory.write_of_ge v⟩
  by_contra hlt
  rw [Memory.write_of_lt v (Nat.not_le.mp hlt)] at h
  cases h

/-- A write inside memory, seen by every later read: its own address has the byte, the others what they had. -/
theorem Memory.read_getD_write {m : Memory} {a : Nat} (hwf : m.wf = true) (ha : a < m.size) (v : Byte) (x : Nat) :
    ((m.write a v).getD m).read x = if a = x then some v else m.read x := by
  have hw := Memory.write_of_lt v ha
  rw [hw, Option.getD_some]
  split
  · next e => exact e ▸ Memory.read_write_same hwf hw
  · next hne => exact Memory.read_write_other hw (Ne.symm hne)

/-! ## Many writes, and the host load -/

theorem storeAll_concat (m : Memory) (ws : List (Nat × Byte)) (w : Nat × Byte) :
    storeAll m (ws ++ [w]) = ((storeAll m ws).write w.1 w.2).getD (storeAll m ws) := by
  simp [storeAll]

theorem storeAll_size (m : Memory) (ws : List (Nat × Byte)) : (storeAll m ws).size = m.size := by
  induction ws using List.reverseRecOn with
  | nil => rfl
  | append_singleton ws w ih => rw [storeAll_concat, Memory.getD_write_size, ih]

theorem storeAll_wf {m : Memory} (hwf : m.wf = true) (ws : List (Nat × Byte)) : (storeAll m ws).wf = true := by
  induction ws using List.reverseRecOn with
  | nil => exact hwf
  | append_singleton ws w ih =>
    rw [storeAll_concat]
    exact Memory.getD_write_wf _ _ ih

/-- After writes inside memory a read returns the latest one to its address, or what memory held before (R49). -/
theorem read_storeAll {m : Memory} (hwf : m.wf = true) {ws : List (Nat × Byte)} (hws : ∀ w ∈ ws, w.1 < m.size)
    (a : Nat) : (storeAll m ws).read a = ((ws.reverse.find? fun w => w.1 == a).map Prod.snd).or (m.read a) := by
  induction ws using List.reverseRecOn with
  | nil => rfl
  | append_singleton ws w ih =>
    have hw : w.1 < (storeAll m ws).size := storeAll_size m ws ▸ hws w (by simp)
    rw [storeAll_concat, Memory.read_getD_write (storeAll_wf hwf ws) hw, List.reverse_concat]
    split
    · next e => rw [List.find?_cons_of_pos (by simpa using e), Option.map_some, Option.some_or]
    · next hne =>
      rw [List.find?_cons_of_neg (by simpa using hne)]
      exact ih fun u hu => hws u (List.mem_append_left _ hu)

/-- Memory after the host load: canonical, of the same length, the image from address 0 and 0x00 behind it (R202). -/
theorem read_of_hostLoad {n : Nat} {img : List Byte} {s : State} (h1 : 1 ≤ n) (h2 : n ≤ 256)
    (h : (State.resetOfSize n).hostLoad img = .ok s) :
    s.mem.wf = true ∧ s.mem.size = n ∧ ∀ a, a < n → s.mem.read a = some (img.getD a 0) := by
  rw [State.hostLoad_resetOfSize] at h
  split at h
  swap
  · cases h
  next hl =>
    injection h with h
    subst h
    have hwf : (Memory.mk n []).wf = true := Memory.wf_empty h1 h2
    refine ⟨Memory.place_wf img 0 hwf, Memory.place_size _ img 0, fun a ha => ?_⟩
    change ((Memory.mk n []).place 0 img).read a = _
    by_cases hi : a < img.length
    · have hread := Memory.read_place (a := 0) hwf (by simpa using hl) a hi
      simpa [hi] using hread
    · rw [Memory.read_place_above _ img (by omega), Memory.read_of_lt (show a < n from ha)]
      simp [cellsGet, Nat.not_lt.mp hi]

/-! ## The canonical form -/

/-- The first cell of a canonical list reads other than zero, so no list that reads alike begins behind it. -/
theorem head_address_le {lo lo' hi a b : Nat} {v w : Byte} {rest rest' : List Host.Cell}
    (h : cellsWf lo hi ((a, v) :: rest) = true) (h' : cellsWf lo' hi ((b, w) :: rest') = true)
    (same : ∀ x, x < hi → cellsGet ((a, v) :: rest) x = cellsGet ((b, w) :: rest') x) : b ≤ a := by
  obtain ⟨-, hhi, hv, -⟩ := (cellsWf_cons_iff ..).1 h
  obtain ⟨-, hrest'⟩ := (cellsWf_cons_iff ..).1 h'
  by_contra hlt
  have unlisted : cellsGet ((b, w) :: rest') a = 0 :=
    cellsGet_below ((cellsWf_cons_iff b ..).2 ⟨le_rfl, hrest'⟩) (Nat.not_le.mp hlt)
  have listed : cellsGet ((a, v) :: rest) a = v := if_pos rfl
  exact hv (listed.symm.trans ((same a hhi).trans unlisted))

/-- A canonical list that reads zero everywhere lists nothing. -/
theorem cells_eq_nil {lo hi : Nat} {cells : List Host.Cell} (h : cellsWf lo hi cells = true)
    (zero : ∀ x, x < hi → cellsGet cells x = 0) : cells = [] := by
  cases cells with
  | nil => rfl
  | cons c rest =>
    obtain ⟨-, hhi, hv, -⟩ := (cellsWf_cons_iff lo hi c.1 c.2 rest).1 h
    exact absurd ((if_pos rfl).symm.trans (zero c.1 hhi)) hv

/-- Canonical lists of cells that read alike are equal. -/
theorem cells_ext {lo lo' hi : Nat} {cells cells' : List Host.Cell} (h : cellsWf lo hi cells = true)
    (h' : cellsWf lo' hi cells' = true) (same : ∀ x, x < hi → cellsGet cells x = cellsGet cells' x) :
    cells = cells' := by
  induction cells generalizing lo lo' cells' with
  | nil => exact (cells_eq_nil h' fun x hx => (same x hx).symm).symm
  | cons c rest ih =>
    cases cells' with
    | nil => exact cells_eq_nil h same
    | cons c' rest' =>
      obtain ⟨a, v⟩ := c
      obtain ⟨b, w⟩ := c'
      obtain rfl : a = b :=
        Nat.le_antisymm (head_address_le h' h fun x hx => (same x hx).symm) (head_address_le h h' same)
      obtain ⟨-, hhi, -, hrest⟩ := (cellsWf_cons_iff ..).1 h
      obtain ⟨-, -, -, hrest'⟩ := (cellsWf_cons_iff ..).1 h'
      obtain rfl : v = w := by simpa [cellsGet] using same a hhi
      have same_rest : ∀ x, x < hi → cellsGet rest x = cellsGet rest' x := fun x hx => by
        by_cases hxa : x ≤ a
        · rw [cellsGet_below hrest (by omega), cellsGet_below hrest' (by omega)]
        · simpa [cellsGet, show x ≠ a by omega] using same x hx
      rw [ih hrest hrest' same_rest]

/-! ## What an instruction writes, and the fetch behind it -/

/-- A completed instruction keeps the length of memory and every byte but the one it stores (R43). -/
theorem Completes.mem_frame {s t : State} {i : Instr} (h : Completes s i t) :
    t.mem.size = s.mem.size ∧ ∀ x, storeAddress s i ≠ some x → t.mem.read x = s.mem.read x := by
  have stored : ∀ {m : Memory} {v : Byte}, s.mem.write s.pushedSp.toNat v = some m →
      m.size = s.mem.size ∧ ∀ x, some s.pushedSp.toNat ≠ some x → m.read x = s.mem.read x :=
    fun hw => ⟨Memory.write_size hw, fun _ hx => Memory.read_write_other hw fun e => hx (e ▸ rfl)⟩
  cases h with
  | push a r m _ hw => exact stored hw
  | call a r m _ _ hw => exact stored hw
  | _ => exact ⟨rfl, fun _ _ => rfl⟩

/-- A RUNNING cycle fetches from memory as it then is (R82, R85). -/
theorem fetchesFrom_mem {t : State} (ht : t.status = .running) : FetchesFrom t t.mem.read := by
  intro op a b h0 h1 h2
  rw [step_of_running ht, cycle_of_bytes exec h0 h1 h2]
  cases decodeOpcode op <;> rfl

/-- A RUNNING cycle behind a store fetches from memory with that byte in it (R50). -/
theorem fetchesFrom_withStored {s t : State} {a : Nat} {v : Byte} (hwf : s.mem.wf = true) (ht : t.status = .running)
    (hw : s.mem.write a v = some t.mem) : FetchesFrom t (withStored s a v) := by
  have seen : t.mem.read = withStored s a v := by
    funext x
    unfold withStored
    split
    · next e => exact e ▸ Memory.read_write_same hwf hw
    · next hne => exact Memory.read_write_other hw hne
  exact seen ▸ fetchesFrom_mem ht

/-- A register as PUSH and CALL read it, after SP has moved (R141, R164; D18). -/
theorem setSp_pushedSp_reg (s : State) (r : Reg) :
    (s.setSp s.pushedSp).reg r = if r = 7 then s.pushedSp else s.regs[r] := s.setReg_reg _ r _

end Sys2Proof.Machine

namespace Sys2Proof.Claims

open Sys2Proof.Machine

/-- Settles O41: a completed instruction stores at most at its store address, and a fault keeps memory. -/
theorem onlyPushAndCallWriteMemory : Obligations.OnlyPushAndCallWriteMemory := by
  intro i s t h
  obtain hc | ⟨kind, info, -, rfl⟩ := exec_cases h
  · exact hc.mem_frame
  · exact ⟨rfl, fun _ _ => rfl⟩

/-- Settles O46: the writes lie over what the load left, the latest on top. -/
theorem readReturnsTheLatestWrite : Obligations.ReadReturnsTheLatestWrite := by
  intro n img s writes a h1 h2 hload hwrites ha
  obtain ⟨hwf, rfl, hread⟩ := read_of_hostLoad h1 h2 hload
  rw [read_storeAll hwf hwrites, hread a ha]
  cases writes.reverse.find? fun w => w.1 == a <;> rfl

/-- Settles O47: the cells are canonical lists, which their reads below the length determine. -/
theorem canonicalMemoriesAreDeterminedByReads : Obligations.CanonicalMemoriesAreDeterminedByReads := by
  rintro ⟨n, cells⟩ ⟨_, cells'⟩ hm hm' rfl hread
  obtain ⟨-, -, hc⟩ := (Memory.wf_iff _).1 hm
  obtain ⟨-, -, hc'⟩ := (Memory.wf_iff _).1 hm'
  refine congrArg (Memory.mk n) (cells_ext hc hc' fun x hx => ?_)
  simpa [Memory.read, show x < n from hx] using hread x

/-- Settles O48: the store of a PUSH or a CALL that completes is in the memory that the next cycle fetches from. -/
theorem pushedOpcodeIsExecutedNext : Obligations.PushedOpcodeIsExecutedNext := by
  intro r s hwf hrun hsp
  refine ⟨?_, fun hret => ?_⟩
  · have hw := Memory.write_of_lt ((s.setSp s.pushedSp).reg r) hsp
    refine ⟨_, (exec_push_eq r s).trans (withWrite_of_some hw _), hrun, rfl, ?_⟩
    rw [← setSp_pushedSp_reg]
    exact fetchesFrom_withStored hwf hrun hw
  · have hw := Memory.write_of_lt (BitVec.ofNat 8 (s.pc + 2)) hsp
    exact ⟨_, (exec_call_eq r hret).trans (withWrite_of_some hw _), hrun,
      congrArg BitVec.toNat (setSp_pushedSp_reg s r), fetchesFrom_withStored hwf hrun hw⟩

/-- Settles O45: the port's bound is the length, and what it refuses is raised in the state from before. -/
theorem memoryPortFailsExactlyOutsideMemory : Obligations.MemoryPortFailsExactlyOutsideMemory :=
  ⟨Memory.read_eq_none_iff, Memory.write_eq_none_iff,
    fun _ _ v read write h => ⟨withRead_of_ge h read, withWrite_of_ge h v write⟩⟩

end Sys2Proof.Claims
end

section
/-! SUPPORT. O1, O2, O3, O4, O5, O6: the decoder by operand count, its inversion, and the opcode byte read back from its
fields. -/

namespace Sys2Proof

/-! ## The decoder, by the number of operand bytes -/

theorem decode_eq_of_count0 {op : Byte} (hc : operandCount op = 0) (rest : List Byte) :
    decode (op :: rest) = decodeWith op 0 0 rest := by
  simp [decode, hc]

theorem decode_eq_of_count1 {op : Byte} (hc : operandCount op = 1) (a : Byte) (rest : List Byte) :
    decode (op :: a :: rest) = decodeWith op a 0 rest := by
  simp [decode, hc]

theorem decode_eq_of_count_ge2 {op : Byte} (hc : 2 ≤ operandCount op) (a b : Byte) (rest : List Byte) :
    decode (op :: a :: b :: rest) = decodeWith op a b rest := by
  simp [decode, show operandCount op ≠ 0 by omega, show operandCount op ≠ 1 by omega]

/-- Operand A is missing, whether or not the opcode byte is an instruction (R69, R84). -/
theorem decode_missing1 {op : Byte} (hc : 1 ≤ operandCount op) : decode [op] = .error (.truncated 1) := by
  simp [decode, show operandCount op ≠ 0 by omega]

/-- Operand B is missing, whether or not the opcode byte is an instruction (R69, R84). -/
theorem decode_missing2 {op : Byte} (hc : 2 ≤ operandCount op) (a : Byte) :
    decode [op, a] = .error (.truncated 2) := by
  simp [decode, show operandCount op ≠ 0 by omega, show operandCount op ≠ 1 by omega]

/-! ## What a decoded instruction says of the bytes -/

theorem decodeWith_ok {op a b : Byte} {tail rest : List Byte} {i : Instr}
    (h : decodeWith op a b tail = .ok (i, rest)) : ∃ o, decodeOpcode op = some o ∧ i = o.build a b ∧ tail = rest := by
  cases hd : decodeOpcode op with
  | none => rw [decodeWith_of_none hd] at h; cases h
  | some o =>
    rw [decodeWith_of_some hd] at h
    cases h
    exact ⟨o, rfl, rfl, rfl⟩

/-- The inversion lemma of `decode`: the bytes begin with an opcode of the map and as many operand bytes as it counts,
and the instruction is the one they build (R62, R65). -/
theorem decode_ok_cases {bytes rest : List Byte} {i : Instr} (h : decode bytes = .ok (i, rest)) :
    ∃ op o a b, decodeOpcode op = some o ∧ i = o.build a b ∧
      bytes = op :: [a, b].take (operandCount op) ++ rest := by
  match bytes with
  | [] => cases h
  | op :: tail =>
    rcases hc : operandCount op with _ | _ | n
    · rw [decode_eq_of_count0 hc] at h
      obtain ⟨o, ho, hi, rfl⟩ := decodeWith_ok h
      exact ⟨op, o, 0, 0, ho, hi, by simp [hc]⟩
    · match tail with
      | [] => rw [decode_missing1 (by omega)] at h; cases h
      | a :: tail =>
        rw [decode_eq_of_count1 hc] at h
        obtain ⟨o, ho, hi, rfl⟩ := decodeWith_ok h
        exact ⟨op, o, a, 0, ho, hi, by simp [hc]⟩
    · match tail with
      | [] => rw [decode_missing1 (by omega)] at h; cases h
      | [a] => rw [decode_missing2 (by omega)] at h; cases h
      | a :: b :: tail =>
        rw [decode_eq_of_count_ge2 (by omega)] at h
        obtain ⟨o, ho, hi, rfl⟩ := decodeWith_ok h
        exact ⟨op, o, a, b, ho, hi, by simp [hc]⟩

/-- What the decoder answers is encoded by the bytes it took. -/
theorem eq_encode_of_decode {bytes rest : List Byte} {i : Instr} (h : decode bytes = .ok (i, rest)) :
    bytes = encode i ++ rest := by
  obtain ⟨op, o, a, b, ho, rfl, rfl⟩ := decode_ok_cases h
  rw [encode_build ho]

theorem decode_encode (i : Instr) : Laws.DecodeEncode.Statement i :=
  match i with
  | .hlt => Laws.DecodeEncode.hlt
  | .ret => Laws.DecodeEncode.ret
  | .push a => Laws.DecodeEncode.push a
  | .pop a => Laws.DecodeEncode.pop a
  | .prn a => Laws.DecodeEncode.prn a
  | .call a => Laws.DecodeEncode.call a
  | .jmp a => Laws.DecodeEncode.jmp a
  | .jeq a => Laws.DecodeEncode.jeq a
  | .jne a => Laws.DecodeEncode.jne a
  | .ldi a imm => Laws.DecodeEncode.ldi a imm
  | .add a b => Laws.DecodeEncode.add a b
  | .sub a b => Laws.DecodeEncode.sub a b
  | .mul a b => Laws.DecodeEncode.mul a b
  | .cmp a b => Laws.DecodeEncode.cmp a b

/-- Every instruction is built from an opcode byte of the map. -/
theorem Instr.exists_eq_build (i : Instr) : ∃ op o a b, decodeOpcode op = some o ∧ i = o.build a b := by
  obtain ⟨op, o, a, b, ho, hi, -⟩ := decode_ok_cases (decode_encode i [])
  exact ⟨op, o, a, b, ho, hi⟩

/-! ## The bytes that are no instruction -/

theorem decodeWith_eq_unknown_iff (op a b : Byte) (rest : List Byte) :
    decodeWith op a b rest = .error (.unknownInstruction op) ↔ decodeOpcode op = none := by
  cases hd : decodeOpcode op with
  | none => simp [decodeWith_of_none hd]
  | some o => simp [decodeWith_of_some hd]

/-- With enough operand bytes, the opcode byte alone decides whether the decoder rejects (R65). -/
theorem decode_eq_unknown_iff (op a b : Byte) (rest : List Byte) :
    decode (op :: a :: b :: rest) = .error (.unknownInstruction op) ↔ decodeOpcode op = none := by
  rcases hc : operandCount op with _ | _ | n
  · rw [decode_eq_of_count0 hc, decodeWith_eq_unknown_iff]
  · rw [decode_eq_of_count1 hc, decodeWith_eq_unknown_iff]
  · rw [decode_eq_of_count_ge2 (by omega), decodeWith_eq_unknown_iff]

theorem decodeOpcode_eq_none_iff (op : Byte) : decodeOpcode op = none ↔ op ∉ opcodeMap.map OpcodeRow.byte := by
  simp [decodeOpcode, List.find?_eq_none]

/-- The bytes that the decoder looks up with success are the map's, each of them in one row only (R65, R66). -/
theorem countP_decodeOpcode_isSome :
    ((List.range 256).countP fun n => (decodeOpcode (BitVec.ofNat 8 n)).isSome) = opcodeMap.length := by
  have rows_nodup : (opcodeMap.map fun row => row.byte.toNat).Nodup := by decide
  have found : ((List.range 256).filter fun n => (decodeOpcode (BitVec.ofNat 8 n)).isSome).Perm
      (opcodeMap.map fun row => row.byte.toNat) := by
    refine (List.perm_ext_iff_of_nodup (List.nodup_range.filter _) rows_nodup).2 fun n => ?_
    rw [List.mem_filter, List.mem_range, Option.isSome_iff_ne_none, ne_eq, decodeOpcode_eq_none_iff, not_not,
      List.mem_map, List.mem_map]
    constructor
    · rintro ⟨hn, row, hrow, hbyte⟩
      exact ⟨row, hrow, by rw [hbyte, BitVec.toNat_ofNat, Nat.mod_eq_of_lt hn]⟩
    · rintro ⟨row, hrow, rfl⟩
      exact ⟨row.byte.isLt, row, hrow, by simp⟩
  rw [List.countP_eq_length_filter, found.length_eq, List.length_map]

/-! ## The two fields that make up the byte -/

theorem operandCount_eq_div (op : Byte) : operandCount op = op.toNat / 64 := by
  have := op.isLt
  simp only [operandCount, BitVec.extractLsb_toNat, Nat.shiftRight_eq_div_pow]
  omega

theorem operationId_toNat (op : Byte) : (operationId op).toNat = op.toNat % 64 := by
  simp [operationId]

/-- op[7:6] and op[5:0] together are the whole byte (R61). -/
theorem operandCount_and_operationId_eq_iff (x y : Byte) :
    operandCount x = operandCount y ∧ operationId x = operationId y ↔ x = y := by
  constructor
  · rintro ⟨hcount, hid⟩
    have hid := congrArg BitVec.toNat hid
    rw [operandCount_eq_div, operandCount_eq_div] at hcount
    rw [operationId_toNat, operationId_toNat] at hid
    exact BitVec.eq_of_toNat_eq (by omega)
  · rintro rfl
    exact ⟨rfl, rfl⟩

/-- R67: the two decoders look for the same row. -/
theorem decodeOpcodeById_eq (op : Byte) : decodeOpcodeById op = decodeOpcode op := by
  have same_rows : ∀ row : OpcodeRow,
      (operandCount row.byte == operandCount op && operationId row.byte == operationId op) = (row.byte == op) := by
    intro row
    rw [Bool.eq_iff_iff]
    simpa using operandCount_and_operationId_eq_iff row.byte op
  simp only [decodeOpcodeById, decodeOpcode, same_rows]

end Sys2Proof

namespace Sys2Proof.Claims

open Sys2Proof.Laws

/-- Settles O1: the inversion of `decode` gives the words, and each instruction's words decode to it. -/
theorem decodeAnswersExactlyTheEncodedInstruction : Obligations.DecodeAnswersExactlyTheEncodedInstruction :=
  fun _ rest i => ⟨eq_encode_of_decode, fun h => h ▸ decode_encode i rest⟩

/-- Settles O2: the decoder rejects what the map does not list, and no listed byte counts three operands. -/
theorem decodeRejectsEveryOtherOpcodeByte : Obligations.DecodeRejectsEveryOtherOpcodeByte := by
  refine ⟨fun op a b rest => ?_, countP_decodeOpcode_isSome, fun op hc => ?_⟩
  · rw [decode_eq_unknown_iff, decodeOpcode_eq_none_iff]
    rfl
  · rw [Option.eq_none_iff_forall_ne_some]
    intro o ho
    have := operandCount_le_of_some ho
    omega

/-- Settles O3: each operand byte is asked for before the opcode byte is looked up. -/
theorem decodeReportsTheFirstMissingByte : Obligations.DecodeReportsTheFirstMissingByte :=
  ⟨rfl, fun _ => decode_missing1, fun _ a hc => decode_missing2 hc a⟩

/-- Settles O4: each of the words is the encoding of its instruction, with no byte behind it. -/
theorem specWordsDecode : Obligations.SpecWordsDecode :=
  ⟨DecodeEncode.hlt [], DecodeEncode.ret [], DecodeEncode.push 0 [], DecodeEncode.pop 5 [], DecodeEncode.prn 0 [],
    DecodeEncode.call 1 [], DecodeEncode.jmp 4 [], DecodeEncode.jeq 3 [], DecodeEncode.jne 3 [],
    DecodeEncode.ldi 0 8 [], DecodeEncode.add 0 1 [], DecodeEncode.sub 0 1 [], DecodeEncode.mul 0 1 [],
    DecodeEncode.cmp 0 1 []⟩

/-- Settles O5, row by row of the map. -/
theorem opcodeFieldsMatchTheMap : Obligations.OpcodeFieldsMatchTheMap := by
  unfold Obligations.OpcodeFieldsMatchTheMap
  decide

/-- Settles O6: count and id together are the byte, so both decoders find the same row. -/
theorem idKeyedDecoderIsEquivalent : Obligations.IdKeyedDecoderIsEquivalent :=
  ⟨by decide, decodeOpcodeById_eq⟩

end Sys2Proof.Claims
end

section
/-! SUPPORT. O14: the length of an instruction from its opcode byte, and the one update of pc. -/

namespace Sys2Proof

/-- The length from op[7:6] (R64). -/
theorem Instr.length_eq (i : Instr) : i.length = 1 + operandCount ((encode i).headD 0) := by
  obtain ⟨op, o, a, b, ho, rfl⟩ := i.exists_eq_build
  rw [length_build ho, encode_build ho, List.headD_cons]

end Sys2Proof

namespace Sys2Proof.Claims

open Sys2Proof.Machine

/-- The default advance of R88 goes to the address behind the instruction. -/
theorem advance_eq (s : State) (i : Instr) : s.pc + 1 + operandCount ((encode i).headD 0) = s.pc + i.length := by
  rw [Instr.length_eq, Nat.add_assoc]

/-- Completing an instruction writes the pc that R88 names. -/
theorem pc_eq_pcAfter {s t : State} {i : Instr} (h : Completes s i t) : t.pc = pcAfter s i := by
  cases h with
  | ret v hv => simp [pcAfter, byteAt, hv]
  | call a r m ha =>
    have operand_is_sp : operandOf r = operandOf 7 ↔ r = 7 := ⟨operandOf_injective, congrArg operandOf⟩
    subst ha
    simp only [State.setPc_pc, setSp_pushedSp_reg, pcAfter, operand_is_sp, regAt_operandOf]
    rfl
  | jmp a r ha => simp [pcAfter, ha, regAt_operandOf]
  | jeq a r ha => subst ha; simp only [State.setPc_pc, pcAfter, regAt_operandOf, advance_eq]; rfl
  | jne a r ha => subst ha; simp only [State.setPc_pc, pcAfter, regAt_operandOf, advance_eq]; rfl
  | _ => simp only [pcAfter, advance_eq]; rfl

/-- Settles O14: a fault is excluded, and a completed instruction has advanced by its length or gone to its target. -/
theorem pcIsUpdatedByLengthOrByTarget : Obligations.PcIsUpdatedByLengthOrByTarget := by
  refine ⟨Instr.length_eq, fun a b => ?_, fun i s t h hnf => ?_⟩
  · simp [Instr.length, encode]
  · obtain hc | ⟨kind, info, -, rfl⟩ := exec_cases h
    · exact pc_eq_pcAfter hc
    · exact absurd (s.takeFault_status kind info) (hnf _)

end Sys2Proof.Claims
end

section
/-! SUPPORT. O59: reading back what is written: the words of a line, registers, decimal literals, mnemonics, and the
line of each format (R73). -/

namespace Sys2Proof.Machine

/-! ## Splitting a line into words -/

/-- Text that the assembler reads as one word: some text with no space and no comma. -/
def IsWord (w : List Char) : Prop := w ≠ [] ∧ ∀ c ∈ w, ¬ (c = ' ' ∨ c = ',')

theorem splitWords_append {w : List Char} (hw : ∀ c ∈ w, ¬ (c = ' ' ∨ c = ',')) (read rest : List Char) :
    splitWords read (w ++ rest) = splitWords (w.reverse ++ read) rest := by
  induction w generalizing read with
  | nil => rfl
  | cons c w ih =>
    obtain ⟨hc, hw⟩ := List.forall_mem_cons.1 hw
    calc splitWords read (c :: (w ++ rest))
      _ = splitWords (c :: read) (w ++ rest) := by rw [splitWords, if_neg hc]
      _ = splitWords ((c :: w).reverse ++ read) rest := by rw [ih hw]; simp

/-- A word at the end of a line. -/
theorem IsWord.splitWords_end {w : List Char} (hw : IsWord w) : splitWords [] w = [w] := by
  have h := splitWords_append hw.2 [] []
  simpa [splitWords, hw.1] using h

/-- A word and the space behind it. -/
theorem IsWord.splitWords_space {w : List Char} (hw : IsWord w) (rest : List Char) :
    splitWords [] (w ++ ' ' :: rest) = w :: splitWords [] rest := by
  rw [splitWords_append hw.2]
  simp [splitWords, hw.1]

/-- A word and the comma and space behind it. -/
theorem IsWord.splitWords_comma {w : List Char} (hw : IsWord w) (rest : List Char) :
    splitWords [] (w ++ ',' :: ' ' :: rest) = w :: splitWords [] rest := by
  rw [splitWords_append hw.2]
  simp [splitWords, hw.1]

/-! ## Decimal literals -/

theorem digitValue_digit : ∀ d < 10, digitValue 10 (Char.ofNat (48 + d)) = some d := by decide

/-- The digits of a byte have its value. -/
theorem digitsValue_decimal (v : Byte) : digitsValue 10 0 (decimal v) = some v.toNat := by
  have := v.isLt
  simp only [decimal]
  split
  · next h => simp [digitsValue, digitValue_digit _ h]
  · split
    · next h1 h2 =>
      simp only [digitsValue, digitValue_digit _ (show v.toNat / 10 < 10 by omega),
        digitValue_digit _ (show v.toNat % 10 < 10 by omega)]
      exact congrArg some (by omega)
    · simp only [digitsValue, digitValue_digit _ (show v.toNat / 100 < 10 by omega),
        digitValue_digit _ (show v.toNat / 10 % 10 < 10 by omega), digitValue_digit _ (show v.toNat % 10 < 10 by omega)]
      exact congrArg some (by omega)

/-- Text that has a value in a base holds digits of that base alone. -/
theorem digitValue_ne_none_of_digitsValue {base acc n : Nat} {word : List Char}
    (h : digitsValue base acc word = some n) : ∀ c ∈ word, digitValue base c ≠ none := by
  induction word generalizing acc with
  | nil => exact fun c hc => absurd hc List.not_mem_nil
  | cons c word ih =>
    rw [digitsValue] at h
    cases hd : digitValue base c with
    | none => rw [hd] at h; cases h
    | some d =>
      rw [hd] at h
      exact List.forall_mem_cons.2 ⟨by simp [hd], ih h⟩

theorem decimal_ne_nil (v : Byte) : decimal v ≠ [] := by
  simp only [decimal]
  split
  · exact List.cons_ne_nil _ _
  · split <;> exact List.cons_ne_nil _ _

theorem isWord_decimal (v : Byte) : IsWord (decimal v) := by
  refine ⟨decimal_ne_nil v, fun c hc hsep => ?_⟩
  have hdigit := digitValue_ne_none_of_digitsValue (digitsValue_decimal v) c hc
  rcases hsep with rfl | rfl
  · exact hdigit rfl
  · exact hdigit rfl

/-- A literal that has a decimal value is read as decimal: `x` and `b` are no decimal digits. -/
theorem parseLiteral_of_digitsValue {word : List Char} {n : Nat} (hne : word ≠ [])
    (h : digitsValue 10 0 word = some n) (hn : n < 256) : parseLiteral word = some (BitVec.ofNat 8 n) := by
  have hdigit := digitValue_ne_none_of_digitsValue h
  unfold parseLiteral
  split
  · exact absurd rfl hne
  · exact absurd rfl (hdigit 'x' (by simp))
  · exact absurd rfl (hdigit 'b' (by simp))
  · simp [h, hn]

theorem parseLiteral_decimal (v : Byte) : parseLiteral (decimal v) = some v := by
  rw [parseLiteral_of_digitsValue (decimal_ne_nil v) (digitsValue_decimal v) v.isLt, BitVec.ofNat_toNat,
    BitVec.setWidth_eq]

/-! ## Registers and mnemonics -/

theorem isWord_renderReg (v : Byte) : IsWord (renderReg v) :=
  ⟨List.cons_ne_nil _ _, List.forall_mem_cons.2 ⟨by decide, (isWord_decimal v).2⟩⟩

theorem parseReg_renderReg {v : Byte} (h : validReg v = true) : parseReg (renderReg v) = some v := by
  have registers : ∀ r : Reg, parseReg (renderReg (operandOf r)) = some (operandOf r) := by decide
  rw [eq_operandOf (of_decide_eq_true h)]
  exact registers _

theorem isWord_opcodeMnemonic (o : Opcode) : IsWord (opcodeMnemonic o).toList := by
  cases o <;> simp [IsWord, opcodeMnemonic]

theorem parseMnemonic_opcodeMnemonic :
    ∀ row ∈ opcodeMap, parseMnemonic (opcodeMnemonic row.op).toList = some row := by
  simp only [opcodeMap, List.forall_mem_cons]
  exact ⟨rfl, rfl, rfl, rfl, rfl, rfl, rfl, rfl, rfl, rfl, rfl, rfl, rfl, rfl, fun _ h => absurd h List.not_mem_nil⟩

/-! ## The line of each format -/

section
variable {o : Opcode} {byte : Byte}

theorem assembleLine_f0 (h : ⟨o, byte, .f0⟩ ∈ opcodeMap) (a b : Byte) :
    assembleLine (renderOpcode o a b .f0) = some (o.build 0 0) := by
  have words : splitWords [] (renderOpcode o a b .f0) = [(opcodeMnemonic o).toList] :=
    (isWord_opcodeMnemonic o).splitWords_end
  simp [assembleLine, words, parseMnemonic_opcodeMnemonic _ h]

theorem assembleLine_f1 (h : ⟨o, byte, .f1⟩ ∈ opcodeMap) {a : Byte} (ha : validReg a = true) (b : Byte) :
    assembleLine (renderOpcode o a b .f1) = some (o.build a 0) := by
  have words : splitWords [] (renderOpcode o a b .f1) = [(opcodeMnemonic o).toList, renderReg a] := by
    simp [renderOpcode, (isWord_opcodeMnemonic o).splitWords_space, (isWord_renderReg a).splitWords_end]
  simp [assembleLine, words, parseMnemonic_opcodeMnemonic _ h, parseReg_renderReg ha]

theorem assembleLine_f2r (h : ⟨o, byte, .f2r⟩ ∈ opcodeMap) {a b : Byte} (ha : validReg a = true)
    (hb : validReg b = true) : assembleLine (renderOpcode o a b .f2r) = some (o.build a b) := by
  have words : splitWords [] (renderOpcode o a b .f2r) = [(opcodeMnemonic o).toList, renderReg a, renderReg b] := by
    simp [renderOpcode, (isWord_opcodeMnemonic o).splitWords_space, (isWord_renderReg a).splitWords_comma,
      (isWord_renderReg b).splitWords_end]
  simp [assembleLine, words, parseMnemonic_opcodeMnemonic _ h, parseReg_renderReg ha, parseReg_renderReg hb]

theorem assembleLine_f2i (h : ⟨o, byte, .f2i⟩ ∈ opcodeMap) {a : Byte} (ha : validReg a = true) (imm : Byte) :
    assembleLine (renderOpcode o a imm .f2i) = some (o.build a imm) := by
  have words : splitWords [] (renderOpcode o a imm .f2i) = [(opcodeMnemonic o).toList, renderReg a, decimal imm] := by
    simp [renderOpcode, (isWord_opcodeMnemonic o).splitWords_space, (isWord_renderReg a).splitWords_comma,
      (isWord_decimal imm).splitWords_end]
  simp [assembleLine, words, parseMnemonic_opcodeMnemonic _ h, parseReg_renderReg ha, parseLiteral_decimal]

end

end Sys2Proof.Machine

namespace Sys2Proof.Claims

open Sys2Proof.Machine

/-- Settles O59: the words of a line are its mnemonic and operands, and each of them is read back, format by format. -/
theorem assemblyRoundTrip : Obligations.AssemblyRoundTrip := by
  intro i hwf
  have valid : ∀ v ∈ i.registerOperands, validReg v = true := List.all_eq_true.1 hwf
  cases i with
  | hlt => exact assembleLine_f0 (byte := 0x01) (by decide) 0 0
  | ret => exact assembleLine_f0 (byte := 0x11) (by decide) 0 0
  | push a => exact assembleLine_f1 (byte := 0x45) (by decide) (valid a (.head _)) 0
  | pop a => exact assembleLine_f1 (byte := 0x46) (by decide) (valid a (.head _)) 0
  | prn a => exact assembleLine_f1 (byte := 0x47) (by decide) (valid a (.head _)) 0
  | call a => exact assembleLine_f1 (byte := 0x50) (by decide) (valid a (.head _)) 0
  | jmp a => exact assembleLine_f1 (byte := 0x54) (by decide) (valid a (.head _)) 0
  | jeq a => exact assembleLine_f1 (byte := 0x55) (by decide) (valid a (.head _)) 0
  | jne a => exact assembleLine_f1 (byte := 0x56) (by decide) (valid a (.head _)) 0
  | ldi a imm => exact assembleLine_f2i (byte := 0x82) (by decide) (valid a (.head _)) imm
  | add a b => exact assembleLine_f2r (byte := 0xA0) (by decide) (valid a (.head _)) (valid b (.tail _ (.head _)))
  | sub a b => exact assembleLine_f2r (byte := 0xA1) (by decide) (valid a (.head _)) (valid b (.tail _ (.head _)))
  | mul a b => exact assembleLine_f2r (byte := 0xA2) (by decide) (valid a (.head _)) (valid b (.tail _ (.head _)))
  | cmp a b => exact assembleLine_f2r (byte := 0xA7) (by decide) (valid a (.head _)) (valid b (.tail _ (.head _)))

end Sys2Proof.Claims
end

section
/-! SUPPORT. O7, O8, O15, O16: a step by the words at pc, the end of a run, and a state that steps to itself. -/

namespace Sys2Proof.Machine

/-! ## Where a run ends -/

theorem RunStatus.ended_eq_true_iff (st : RunStatus) : st.ended = true ↔ st ≠ .running := by
  cases st <;> simp [RunStatus.ended]

/-- From HALTED and FAULTED there is no step (R80; D14). -/
theorem step_ne_next_of_ended {s : State} (h : s.status.ended = true) (t : State) : step s ≠ .next t :=
  fun e => (RunStatus.ended_eq_true_iff _).1 h (running_of_step_next e)

/-- A run of a given number of steps leads to one state only. -/
theorem Reaches.unique {k : Nat} {s t u : State} (ht : Reaches k s t) (hu : Reaches k s u) : t = u :=
  Host.Outcome.next.inj (ht.symm.trans hu)

/-- A run that has come to HALTED or FAULTED has no longer run (R92). -/
theorem Reaches.not_reaches_of_ended {k : Nat} {s t : State} (h : Reaches k s t) (ht : t.status.ended = true)
    (j : Nat) (u : State) : ¬ Reaches (k + j + 1) s u := by
  intro hu
  obtain ⟨t', ht', htail⟩ := (reaches_add k (j + 1) s u).1 hu
  obtain ⟨v, hv, -⟩ := (reaches_succ j t' u).1 htail
  exact step_ne_next_of_ended ht v (h.unique ht' ▸ hv)

/-- After any number of steps a run is still going, or it has ended on the way: a RUNNING state always has a step. -/
theorem stillRunning_or_ended {s : State} (hs : s.status = .running) (k : Nat) :
    StillRunning k s ∨ ∃ j t, Reaches j s t ∧ t.status.ended = true := by
  induction k with
  | zero => exact .inl ⟨s, (reaches_zero s s).2 rfl, hs⟩
  | succ k ih =>
    refine ih.elim (fun ⟨t, ht, hrun⟩ => ?_) .inr
    obtain ⟨u, hu⟩ := step_next_of_running hrun
    have hsu : Reaches (k + 1) s u :=
      (reaches_add k 1 s u).2 ⟨t, ht, (reaches_succ 0 t u).2 ⟨u, hu, (reaches_zero u u).2 rfl⟩⟩
    by_cases h : u.status = .running
    · exact .inl ⟨u, hsu, h⟩
    · exact .inr ⟨k + 1, u, hsu, (RunStatus.ended_eq_true_iff _).2 h⟩

/-! ## A state that steps to itself -/

theorem reaches_self_of_step_self {s : State} (h : step s = .next s) (k : Nat) : Reaches k s s := by
  induction k with
  | zero => exact (reaches_zero s s).2 rfl
  | succ k ih => exact (reaches_succ k s s).2 ⟨s, h, ih⟩

theorem exec_jmp_eq (r : Reg) (s : State) : exec (.jmp (operandOf r)) s = .next (s.setPc (s.reg r).toNat) :=
  withReg_operandOf ..

/-- A JMP to its own address leaves the whole state as it is (R161). -/
theorem exec_jmp_self {s : State} {r : Reg} (h : (s.reg r).toNat = s.pc) : exec (.jmp (operandOf r)) s = .next s := by
  rw [exec_jmp_eq, h]
  rfl

end Sys2Proof.Machine

namespace Sys2Proof.Claims

open Sys2Proof.Machine

/-- Settles O8: the fetch raises at the first byte that is missing, and bytes that are there are looked up. -/
theorem fetchOperandReadAndDispatch : Obligations.FetchOperandReadAndDispatch := by
  intro s hs
  have hstep := step_of_running hs
  refine ⟨fun hpc => hstep.trans (withFetched_of_ge hpc _), fun op h0 => ⟨fun hc ha => ?_, fun hc ha hb => ?_, ?_⟩⟩
  · exact hstep.trans (withFetched_missing1 h0 hc ha _)
  · exact hstep.trans (withFetched_missing2 h0 hc (Memory.read_of_lt ha) hb _)
  · exact fun a b => fetchesFrom_mem hs op a b h0

/-- Settles O15: where the run is not RUNNING for ever, some number of steps leads to its end. -/
theorem runEndsExactlyWhenHaltedOrFaulted : Obligations.RunEndsExactlyWhenHaltedOrFaulted := by
  intro s hs
  by_cases forever : ∀ k, StillRunning k s
  · exact .inl forever
  · obtain ⟨n, hn⟩ := not_forall.1 forever
    obtain ⟨k, t, hkt, ht⟩ := (stillRunning_or_ended hs n).resolve_left hn
    exact .inr ⟨k, t, hkt, ht, hkt.not_reaches_of_ended ht⟩

/-- Settles O16: the step that fetches the JMP leads back to the same state. -/
theorem jumpToItselfRunsForever : Obligations.JumpToItselfRunsForever := by
  intro s r hs hop ha hself k
  have hstep : step s = exec (.jmp (operandOf r)) s :=
    fetchesFrom_mem hs 0x54 (operandOf r) 0 hop (fun _ => ha) (fun two => absurd two (by decide))
  exact ⟨s, reaches_self_of_step_self (hstep.trans (exec_jmp_self hself)) k, hs⟩

/-- Settles O7: the words are an opcode byte of the map and the operand bytes it counts, so they are fetched, and the
lookup builds the instruction again. -/
theorem stepRunsTheDecodedInstruction : Obligations.StepRunsTheDecodedInstruction := by
  intro i s hs words
  obtain ⟨op, o, a, b, ho, rfl⟩ := i.exists_eq_build
  rw [length_build ho, encode_build ho] at words
  have h0 : s.mem.read s.pc = some op := words 0 (by omega)
  have h1 : 1 ≤ operandCount op → s.mem.read (s.pc + 1) = some a := fun hc => by
    simpa [List.getElem?_take, show 0 < operandCount op from hc] using words 1 (by omega)
  have h2 : 2 ≤ operandCount op → s.mem.read (s.pc + 2) = some b := fun hc => by
    simpa [List.getElem?_take, show 1 < operandCount op from hc] using words 2 (by omega)
  have hstep := fetchesFrom_mem hs op a b h0 h1 h2
  rwa [ho] at hstep

end Sys2Proof.Claims
end

section
/-! SUPPORT. O17, O18, O19: LDI, PRN and HLT, by their words, their one check and the whole next state. -/

namespace Sys2Proof.Machine

/-- LDI completes for every register: no register is hardwired, and the literal is not checked (R24, R101). -/
theorem exec_ldi_eq (r : Reg) (imm : Byte) (s : State) :
    exec (.ldi (operandOf r) imm) s = .next ((s.setReg r imm).setPc (s.pc + 3)) :=
  withReg_operandOf ..

theorem exec_prn_eq (r : Reg) (s : State) :
    exec (.prn (operandOf r)) s = .next ((s.emit (s.reg r)).setPc (s.pc + 2)) :=
  withReg_operandOf ..

end Sys2Proof.Machine

namespace Sys2Proof.Claims

open Sys2Proof.Machine

/-- Settles O17: the register operand alone is checked, and where it names a register the literal is written. -/
theorem ldiLoadsItsLiteral : Obligations.LdiLoadsItsLiteral :=
  ⟨fun _ _ => rfl, fun _ _ s ha => withReg_of_ge ha s _, exec_ldi_eq⟩

/-- Settles O18: the check comes before the emission, so a PRN that faults leaves the output log. -/
theorem prnAppendsTheRegister : Obligations.PrnAppendsTheRegister :=
  ⟨fun _ => rfl, fun _ s ha => withReg_of_ge ha s _, exec_prn_eq⟩

/-- Settles O19: HLT has no check that could fail, and from the HALTED state it leaves there is no step. -/
theorem hltHaltsPastItsByte : Obligations.HltHaltsPastItsByte :=
  ⟨rfl, fun s => ⟨exec_hlt_eq s, step_of_halted rfl⟩⟩

end Sys2Proof.Claims
end

section
/-! SUPPORT. O20 to O25: ADD, SUB, MUL and CMP, by their words, their two checks, the whole next state, and the result
as a number. -/

namespace Sys2Proof.Machine

/-! ## The two register checks -/

theorem withRegs_of_ge_left {a : Byte} (ha : 7 < a.toNat) (b : Byte) (s : State) (k : Reg → Reg → Result) :
    withRegs a b s k = raise .invalidRegister a.toNat s :=
  withReg_of_ge ha ..

/-- Operand B is checked where A names a register (R86). -/
theorem withRegs_of_ge_right {a b : Byte} (ha : a.toNat ≤ 7) (hb : 7 < b.toNat) (s : State)
    (k : Reg → Reg → Result) : withRegs a b s k = raise .invalidRegister b.toNat s := by
  rw [eq_operandOf (show a.toNat < 8 by omega)]
  exact (withReg_operandOf ..).trans (withReg_of_ge hb ..)

/-! ## The next state when both operands name registers -/

section
variable (ra rb : Reg) (s : State)

theorem execArith_eq (f : Byte → Byte → Byte) : execArith f (operandOf ra) (operandOf rb) s =
    .next ((s.setReg ra (f (s.reg ra) (s.reg rb))).setPc (s.pc + 3)) :=
  withRegs_operandOf ..

theorem exec_add_eq : exec (.add (operandOf ra) (operandOf rb)) s =
    .next ((s.setReg ra (aluAdd (s.reg ra) (s.reg rb))).setPc (s.pc + 3)) :=
  execArith_eq ra rb s aluAdd

theorem exec_sub_eq : exec (.sub (operandOf ra) (operandOf rb)) s =
    .next ((s.setReg ra (aluSub (s.reg ra) (s.reg rb))).setPc (s.pc + 3)) :=
  execArith_eq ra rb s aluSub

theorem exec_mul_eq : exec (.mul (operandOf ra) (operandOf rb)) s =
    .next ((s.setReg ra (aluMul (s.reg ra) (s.reg rb))).setPc (s.pc + 3)) :=
  execArith_eq ra rb s aluMul

theorem exec_cmp_eq : exec (.cmp (operandOf ra) (operandOf rb)) s =
    .next ((s.setFlags (compareFlags (s.reg ra) (s.reg rb))).setPc (s.pc + 3)) :=
  withRegs_operandOf ..

end

/-! ## The results in the words of the rules -/

section
variable (x y : Byte)

theorem aluAdd_eq_ofNat : aluAdd x y = BitVec.ofNat 8 ((x.toNat + y.toNat) % 256) := by
  rw [← aluAdd_toNat, BitVec.ofNat_toNat, BitVec.setWidth_eq]

theorem aluMul_eq_ofNat : aluMul x y = BitVec.ofNat 8 ((x.toNat * y.toNat) % 256) := by
  rw [← aluMul_toNat, BitVec.ofNat_toNat, BitVec.setWidth_eq]

/-- The difference as R120 writes it, with a negative number where it borrows. -/
theorem aluSub_toNat_int : ((aluSub x y).toNat : Int) = (x.toNat - y.toNat : Int) % 256 := by
  have hy : y.toNat < 256 := y.isLt
  rw [aluSub_toNat]
  omega

theorem aluSub_eq_ofNat : aluSub x y = BitVec.ofNat 8 ((x.toNat - y.toNat : Int) % 256).toNat := by
  rw [← aluSub_toNat_int, Int.toNat_natCast, BitVec.ofNat_toNat, BitVec.setWidth_eq]

/-- Subtract undoes Add, wrapped or not (R123). -/
theorem aluSub_aluAdd : aluSub (aluAdd x y) y = x := BitVec.add_sub_cancel x y

theorem aluAdd_toNat_of_overflow (h : 256 ≤ x.toNat + y.toNat) :
    (aluAdd x y).toNat = x.toNat + y.toNat - 256 := by
  have hx : x.toNat < 256 := x.isLt
  have hy : y.toNat < 256 := y.isLt
  rw [aluAdd_toNat]
  omega

theorem aluSub_toNat_of_borrow (h : x.toNat < y.toNat) : (aluSub x y).toNat = x.toNat + 256 - y.toNat := by
  have hy : y.toNat < 256 := y.isLt
  rw [aluSub_toNat]
  omega

theorem compareFlags_eq_ult : compareFlags x y = { L := BitVec.ult x y, G := BitVec.ult y x, E := x == y } := by
  have hE : decide (x.toNat = y.toNat) = (x == y) := decide_eq_decide.2 BitVec.toNat_inj
  rw [compareFlags, hE]
  rfl

end

/-! ## Writing a register back -/

/-- A second write to a register, with what the register held before the first, leaves the register file as it was. -/
theorem State.setReg_regs_set_back (s : State) (r : Reg) (v : Byte) : (s.setReg r v).regs.set r (s.reg r) = s.regs := by
  simp [State.reg]

end Sys2Proof.Machine

namespace Sys2Proof.Claims

open Sys2Proof.Machine

/-- Settles O20: ADD, SUB and MUL write register A with `aluAdd`, `aluSub` and `aluMul` and no other register, flag or
cell, so each clause is the arithmetic of that operation. -/
theorem arithmeticWrapsModulo256 : Obligations.ArithmeticWrapsModulo256 := by
  intro ra rb s
  refine ⟨⟨_, exec_add_eq ra rb s, rfl, ?_⟩, ⟨_, exec_sub_eq ra rb s, rfl, ?_⟩, ⟨_, exec_mul_eq ra rb s, rfl, ?_⟩⟩ <;>
    simp only [State.setPc_reg, State.setReg_reg_same]
  · exact ⟨congrArg Nat.cast (aluAdd_toNat _ _), aluAdd_toNat_of_overflow _ _⟩
  · exact ⟨aluSub_toNat_int _ _, aluSub_toNat_of_borrow _ _⟩
  · exact ⟨congrArg Nat.cast (aluMul_toNat _ _), fun r hr => s.setReg_reg_other _ hr, rfl⟩

/-- Settles O21: `exec_add_eq` with the sum written as a number. -/
theorem addWritesTheSum : Obligations.AddWritesTheSum := by
  refine ⟨fun _ _ => rfl, fun _ b s ha => withRegs_of_ge_left ha b s _,
    fun _ _ s ha hb => withRegs_of_ge_right ha hb s _, fun ra rb s => ?_⟩
  rw [exec_add_eq, aluAdd_eq_ofNat]
  rfl

/-- Settles O22: `exec_sub_eq` with the difference written as a number. After an ADD with distinct registers R[B] is as
before, so the SUB writes R[A] back. -/
theorem subWritesTheDifference : Obligations.SubWritesTheDifference := by
  refine ⟨fun _ _ => rfl, fun _ b s ha => withRegs_of_ge_left ha b s _,
    fun _ _ s ha hb => withRegs_of_ge_right ha hb s _, fun ra rb s => ?_, fun ra rb s hne => ?_⟩
  · rw [exec_sub_eq, aluSub_eq_ofNat]
    rfl
  · refine ⟨_, _, exec_add_eq ra rb s, exec_sub_eq ra rb _, ?_⟩
    rw [State.setPc_reg, State.setPc_reg, State.setReg_reg_same, State.setReg_reg_other _ _ hne.symm, aluSub_aluAdd]
    exact s.setReg_regs_set_back ra _

/-- Settles O23: `exec_mul_eq` with the low byte of the product written as a number. -/
theorem mulWritesTheLowByteOfTheProduct : Obligations.MulWritesTheLowByteOfTheProduct := by
  refine ⟨fun _ _ => rfl, fun _ b s ha => withRegs_of_ge_left ha b s _,
    fun _ _ s ha hb => withRegs_of_ge_right ha hb s _, fun ra rb s => ?_⟩
  rw [exec_mul_eq, aluMul_eq_ofNat]
  rfl

/-- Settles O24: CMP leaves the flags of `compareFlags`, and the order of the two bytes says which one is set. -/
theorem compareSetsExactlyOneFlag : Obligations.CompareSetsExactlyOneFlag := by
  intro ra rb s
  refine ⟨_, exec_cmp_eq ra rb s, compareFlags_L _ _, compareFlags_G _ _, compareFlags_E _ _, ?_⟩
  obtain ⟨-, less⟩ | ⟨-, greater⟩ | ⟨-, equal⟩ := compareFlags_cases (s.reg ra) (s.reg rb)
  · exact .inl less
  · exact .inr (.inl greater)
  · exact .inr (.inr equal)

/-- Settles O25: `exec_cmp_eq` with the flags written as comparisons of bytes. -/
theorem cmpWritesTheThreeFlags : Obligations.CmpWritesTheThreeFlags := by
  refine ⟨fun _ _ => rfl, fun _ b s ha => withRegs_of_ge_left ha b s _,
    fun _ _ s ha hb => withRegs_of_ge_right ha hb s _, fun ra rb s => ?_⟩
  rw [exec_cmp_eq, compareFlags_eq_ult]
  rfl

end Sys2Proof.Claims
end

section
/-! SUPPORT. O27, O28, O29, O36, O37: PUSH and POP, by their words, their checks and the whole next state; what completes
with 256 cells; and the stack discipline: what balanced code keeps, by induction on how it is built (R140 to R143). -/

namespace Sys2Proof.Machine

open Sys2Proof.Claims

/-! ## PUSH and POP -/

/-- Memory after a write through the port (R49). -/
theorem storedOnly_of_write {s t : State} {a : Nat} {v : Byte} (hwf : s.mem.wf = true)
    (hw : s.mem.write a v = some t.mem) : StoredOnly s t a v :=
  ⟨Memory.write_size hw, Memory.read_write_same hwf hw, fun _ => Memory.read_write_other hw⟩

theorem poppedSp_eq_ofNat (s : State) : s.poppedSp = BitVec.ofNat 8 ((s.sp.toNat + 1) % 256) := by
  rw [← poppedSp_toNat, BitVec.ofNat_toNat, BitVec.setWidth_eq]

/-- A POP that reads a byte completes (R142). -/
theorem exec_pop_of_read (r : Reg) {s : State} {v : Byte} (h : s.mem.read s.sp.toNat = some v) :
    exec (.pop (operandOf r)) s = .next (((s.setReg r v).setSp (s.setReg r v).poppedSp).setPc (s.pc + 2)) :=
  (exec_pop_eq r s).trans (withRead_of_some h _)

/-- A PUSH that completes leaves the decremented SP, and at that address the byte of its register, unless that is R7,
which has moved (R141; D18). -/
theorem Completes.push_reg {s t : State} {r : Reg} (h : Completes s (.push (operandOf r)) t) (hr : r ≠ Config.spIndex) :
    t.sp = s.pushedSp ∧ s.mem.write s.pushedSp.toNat (s.reg r) = some t.mem := by
  cases h with
  | push _ q m hq hm =>
    obtain rfl := operandOf_injective hq
    refine ⟨s.setReg_reg_same _ _, ?_⟩
    rwa [State.setSp_eq_setReg, State.setReg_reg_other _ _ hr] at hm

/-! ## What completes with 256 cells -/

theorem exists_operandOf_of_validReg {v : Byte} (h : validReg v = true) : ∃ r, v = operandOf r :=
  ⟨_, eq_operandOf (of_decide_eq_true h)⟩

theorem exec_jeq_eq (r : Reg) (s : State) : exec (.jeq (operandOf r)) s =
    .next (s.setPc (if s.fl.E then (s.reg r).toNat else s.pc + 2)) := by
  refine (withReg_operandOf ..).trans ?_
  cases s.fl.E <;> rfl

theorem exec_jne_eq (r : Reg) (s : State) : exec (.jne (operandOf r)) s =
    .next (s.setPc (if s.fl.E then s.pc + 2 else (s.reg r).toNat)) := by
  refine (withReg_operandOf ..).trans ?_
  cases s.fl.E <;> rfl

theorem notFaulted_of_running {s : State} (h : s.status = .running) : NotFaulted s :=
  fun _ e => nomatch h.symm.trans e

/-! ## Executed code -/

/-- An instruction of executed code has completed. -/
theorem executes_cons {i : Instr} {rest : List Instr} {s t : State} (h : Executes (i :: rest) s t) :
    ∃ u, Completes s i u ∧ Executes rest u t := by
  obtain ⟨u, hu, hrun, hrest⟩ := h
  exact ⟨u, completes_of_exec_running hu hrun, hrest⟩

theorem executes_append {code rest : List Instr} {s t : State} (h : Executes (code ++ rest) s t) :
    ∃ u, Executes code s u ∧ Executes rest u t := by
  induction code generalizing s with
  | nil => exact ⟨s, rfl, h⟩
  | cons i code ih =>
    obtain ⟨u, hu, hrun, htail⟩ := h
    obtain ⟨v, hv, hrest⟩ := ih htail
    exact ⟨v, ⟨u, hu, hrun, hv⟩, hrest⟩

/-- Code between two matching instructions, and the code behind them. -/
theorem executes_bracket {i j : Instr} {body rest : List Instr} {s t : State}
    (h : Executes (i :: (body ++ j :: rest)) s t) :
    ∃ u v w, Completes s i u ∧ Executes body u v ∧ Completes v j w ∧ Executes rest w t := by
  obtain ⟨u, hu, h⟩ := executes_cons h
  obtain ⟨v, hv, h⟩ := executes_append h
  obtain ⟨w, hw, h⟩ := executes_cons h
  exact ⟨u, v, w, hu, hv, hw, h⟩

/-! ## What the stack discipline keeps -/

/-- `t` has the SP of `s`, and the bytes of `s` but for the `d` cells below that SP. -/
def StackKept (d : Nat) (s t : State) : Prop :=
  t.sp = s.sp ∧ ∀ x, (∀ j, 1 ≤ j → j ≤ d → x ≠ (s.sp - BitVec.ofNat 8 j).toNat) → t.mem.read x = s.mem.read x

theorem StackKept.refl (d : Nat) (s : State) : StackKept d s s := ⟨rfl, fun _ _ => rfl⟩

theorem StackKept.trans {d : Nat} {s t u : State} (hst : StackKept d s t) (htu : StackKept d t u) :
    StackKept d s u := by
  obtain ⟨hsp, hread⟩ := hst
  obtain ⟨hsp', hread'⟩ := htu
  exact ⟨hsp'.trans hsp, fun x hx => (hread' x (hsp ▸ hx)).trans (hread x hx)⟩

/-- The byte at SP is not among the at most 255 cells below it. -/
theorem StackKept.read_sp {d : Nat} {s t : State} (h : StackKept d s t) (hd : d ≤ 255) :
    t.mem.read t.sp.toNat = s.mem.read s.sp.toNat := by
  obtain ⟨hsp, hread⟩ := h
  rw [hsp]
  exact hread _ fun j h1 hj => by bv_omega

/-- An instruction that moves SP down and stores there, code that keeps the stack, and an instruction that moves SP up
again: the store is one cell below SP, and the code's `d` cells are below that one. -/
theorem StackKept.bracket {d : Nat} {s u v w : State} {stored : Byte} (hpush : u.sp = s.pushedSp)
    (hstore : s.mem.write s.pushedSp.toNat stored = some u.mem) (hbody : StackKept d u v) (hpop : w.sp = v.poppedSp)
    (hmem : ∀ x, w.mem.read x = v.mem.read x) : StackKept (d + 1) s w := by
  obtain ⟨hsp, hread⟩ := hbody
  refine ⟨?_, fun x hx => ?_⟩
  · calc w.sp
      _ = v.sp + 1 := hpop
      _ = s.sp - 1 + 1 := by rw [hsp, hpush, State.pushedSp]
      _ = s.sp := BitVec.sub_add_cancel _ _
  · have below : ∀ j, 1 ≤ j → j ≤ d → x ≠ (u.sp - BitVec.ofNat 8 j).toNat := fun j _ hj => by
      have deeper : u.sp - BitVec.ofNat 8 j = s.sp - BitVec.ofNat 8 (j + 1) := by
        rw [hpush, State.pushedSp]
        bv_omega
      rw [deeper]
      exact hx (j + 1) (by omega) (by omega)
    calc w.mem.read x
      _ = v.mem.read x := hmem x
      _ = u.mem.read x := hread x below
      _ = s.mem.read x := Memory.read_write_other hstore (hx 1 le_rfl (by omega))

/-! ## The instructions of balanced code -/

theorem not_writesReg_of_stackFree {i : Instr} (h : StackFree i) : ¬ WritesReg Config.spIndex i := by
  cases i with
  | ret | push | pop | call => exact h.elim
  | ldi | add | sub | mul => exact h
  | _ => exact id

theorem storeAddress_eq_none_of_stackFree {i : Instr} (h : StackFree i) (s : State) : storeAddress s i = none := by
  cases i with
  | push | call => exact h.elim
  | _ => rfl

/-- An instruction that stores nowhere keeps what every address reads. -/
theorem Completes.read_eq {s t : State} {i : Instr} (h : Completes s i t) (hi : storeAddress s i = none) (x : Nat) :
    t.mem.read x = s.mem.read x :=
  h.mem_frame.2 x (by simp [hi])

theorem Completes.stackKept {s t : State} {i : Instr} (h : Completes s i t) (hi : StackFree i) (d : Nat) :
    StackKept d s t :=
  ⟨h.reg_eq (not_writesReg_of_stackFree hi), fun x _ => h.read_eq (storeAddress_eq_none_of_stackFree hi s) x⟩

/-- POP into a register other than R7 leaves the incremented SP, whatever byte names the register (R142). -/
theorem Completes.pop_sp {s t : State} {a : Byte} (h : Completes s (.pop a) t) (ha : a ≠ operandOf Config.spIndex) :
    t.sp = s.poppedSp := by
  obtain ⟨r, rfl⟩ : ∃ r, a = operandOf r := by
    cases h with
    | pop _ r _ hr => exact ⟨r, hr⟩
  exact (h.pop_reg fun hr => ha (hr ▸ rfl)).1

/-- Balanced code keeps the stack: each plain instruction does, and so does each matching pair around its body. -/
theorem stackKept_of_balanced {d : Nat} {code : List Instr} (hb : Balanced d code) {s t : State}
    (h : Executes code s t) : StackKept d s t := by
  induction hb generalizing s t with
  | nil d => exact h ▸ StackKept.refl d s
  | plain hi _ ih =>
    obtain ⟨u, hu, hrest⟩ := executes_cons h
    exact (hu.stackKept hi _).trans (ih hrest)
  | pushPop hy _ _ ihbody ihrest =>
    obtain ⟨u, v, w, hpush, hbody, hpop, hrest⟩ := executes_bracket h
    obtain ⟨hsp, _, hstore⟩ := hpush.push_or_call (.inl rfl)
    exact (StackKept.bracket hsp hstore (ihbody hbody) (hpop.pop_sp hy) (hpop.read_eq rfl)).trans (ihrest hrest)
  | callRet _ _ ihbody ihrest =>
    obtain ⟨u, v, w, hcall, hbody, hret, hrest⟩ := executes_bracket h
    obtain ⟨hsp, _, hstore⟩ := hcall.push_or_call (.inr rfl)
    exact (StackKept.bracket hsp hstore (ihbody hbody) hret.ret_sp_pc.1 (hret.read_eq rfl)).trans (ihrest hrest)

end Sys2Proof.Machine

namespace Sys2Proof.Claims

open Sys2Proof.Machine

/-- Settles O36, by induction on how the balanced code is built. -/
theorem balancedCodeKeepsTheStack : Obligations.BalancedCodeKeepsTheStack :=
  fun _ _ _ _ hb h => stackKept_of_balanced hb h

/-- Settles O37: the body leaves SP and the byte at SP as the PUSH left them, and the POP loads that byte. -/
theorem popRestoresWhatTheMatchingPushStored : Obligations.PopRestoresWhatTheMatchingPushStored := by
  intro d x y body s t hwf hd hx hy hb h
  obtain ⟨u, v, w, hpush, hbody, hpop, rfl⟩ := executes_bracket h
  obtain ⟨husp, hstore⟩ := hpush.push_reg hx
  obtain ⟨htsp, hload⟩ := hpop.pop_reg hy
  have kept := stackKept_of_balanced hb hbody
  refine ⟨Option.some.inj ?_, (StackKept.bracket husp hstore kept htsp (hpop.read_eq rfl)).1⟩
  calc some (t.reg y)
    _ = v.mem.read v.sp.toNat := hload.symm
    _ = u.mem.read u.sp.toNat := kept.read_sp hd
    _ = u.mem.read s.pushedSp.toNat := by rw [husp]
    _ = some (s.reg x) := Memory.read_write_same hwf hstore

/-- Settles O27: past the register check the one access is the write at the decremented SP. -/
theorem pushStoresBelowTheStackPointer : Obligations.PushStoresBelowTheStackPointer := by
  refine ⟨fun _ => rfl, pushedSp_toNat, fun _ s ha => withReg_of_ge ha s _,
    fun r s hsp => (exec_push_eq r s).trans (withWrite_of_ge hsp _ _), fun r s hwf hsp => ?_⟩
  have hw := Memory.write_of_lt ((s.setSp s.pushedSp).reg r) hsp
  refine ⟨_, (exec_push_eq r s).trans (withWrite_of_some hw _), ?_, rfl⟩
  rw [← setSp_pushedSp_reg]
  exact storedOnly_of_write hwf hw

/-- Settles O28: past the register check the one access is the read at SP. The register write comes first, so the SP that
gains one is the old SP, or for R7 the byte read. -/
theorem popLoadsFromTheStackPointer : Obligations.PopLoadsFromTheStackPointer := by
  refine ⟨fun _ => rfl, fun _ s ha => withReg_of_ge ha s _,
    fun r s hsp => (exec_pop_eq r s).trans (withRead_of_ge hsp _), fun r v s hr hv => ?_, fun v s hv => ?_⟩
  · have hsp : (s.setReg r v).sp = s.sp := s.setReg_reg_other v hr.symm
    rw [exec_pop_of_read r hv, poppedSp_eq_ofNat, hsp]
    rfl
  · have hsp : (s.setReg 7 v).sp = v := s.setReg_reg_same 7 v
    have overwritten : (s.setReg 7 v).regs.set 7 (BitVec.ofNat 8 ((v.toNat + 1) % 256)) =
        s.regs.set 7 (BitVec.ofNat 8 ((v.toNat + 1) % 256)) := Vector.set_set ..
    rw [exec_pop_of_read 7 hv, poppedSp_eq_ofNat, hsp, ← overwritten]
    rfl

/-- Settles O29, instruction by instruction: the register operands name registers, and every byte is an address. -/
theorem wellFormedInstructionsCompleteIn256Cells : Obligations.WellFormedInstructionsCompleteIn256Cells := by
  intro i s hi hsize hrun hret
  have named : ∀ v ∈ i.registerOperands, ∃ r, v = operandOf r :=
    fun v hv => exists_operandOf_of_validReg (List.all_eq_true.1 hi v hv)
  have inside : ∀ v : Byte, v.toNat < s.mem.size := fun v => hsize ▸ v.isLt
  have done : ∀ {t}, exec i s = .next t → t.status = s.status → ∃ t, exec i s = .next t ∧ NotFaulted t :=
    fun h ht => ⟨_, h, notFaulted_of_running (ht.trans hrun)⟩
  cases i with
  | hlt => exact ⟨_, exec_hlt_eq s, fun _ e => nomatch e⟩
  | ret => exact done (withRead_of_some (Memory.read_of_lt (inside _)) _) rfl
  | push a =>
    obtain ⟨r, rfl⟩ := named a (.head _)
    exact done ((exec_push_eq r s).trans (withWrite_of_some (Memory.write_of_lt _ (inside _)) _)) rfl
  | pop a =>
    obtain ⟨r, rfl⟩ := named a (.head _)
    exact done (exec_pop_of_read r (Memory.read_of_lt (inside _))) rfl
  | call a =>
    obtain ⟨r, rfl⟩ := named a (.head _)
    exact done ((exec_call_eq r (hret _ rfl)).trans (withWrite_of_some (Memory.write_of_lt _ (inside _)) _)) rfl
  | prn a =>
    obtain ⟨r, rfl⟩ := named a (.head _)
    exact done (exec_prn_eq r s) rfl
  | jmp a =>
    obtain ⟨r, rfl⟩ := named a (.head _)
    exact done (exec_jmp_eq r s) rfl
  | jeq a =>
    obtain ⟨r, rfl⟩ := named a (.head _)
    exact done (exec_jeq_eq r s) rfl
  | jne a =>
    obtain ⟨r, rfl⟩ := named a (.head _)
    exact done (exec_jne_eq r s) rfl
  | ldi a imm =>
    obtain ⟨r, rfl⟩ := named a (.head _)
    exact done (exec_ldi_eq r imm s) rfl
  | add a b =>
    obtain ⟨ra, rfl⟩ := named a (.head _)
    obtain ⟨rb, rfl⟩ := named b (.tail _ (.head _))
    exact done (exec_add_eq ra rb s) rfl
  | sub a b =>
    obtain ⟨ra, rfl⟩ := named a (.head _)
    obtain ⟨rb, rfl⟩ := named b (.tail _ (.head _))
    exact done (exec_sub_eq ra rb s) rfl
  | mul a b =>
    obtain ⟨ra, rfl⟩ := named a (.head _)
    obtain ⟨rb, rfl⟩ := named b (.tail _ (.head _))
    exact done (exec_mul_eq ra rb s) rfl
  | cmp a b =>
    obtain ⟨ra, rfl⟩ := named a (.head _)
    obtain ⟨rb, rfl⟩ := named b (.tail _ (.head _))
    exact done (exec_cmp_eq ra rb s) rfl

end Sys2Proof.Claims
end

section
/-! SUPPORT. O30 to O35, O38: the jumps, CALL and RET, by their words, their checks and the whole next state; the fetch of
a target beyond memory; and the RET that comes back behind its CALL (R160 to R166). -/

namespace Sys2Proof.Machine

open Sys2Proof.Claims

/-! ## CALL and RET -/

/-- A CALL whose return address fits a byte, and whose new SP is in memory, completes (R164). -/
theorem exec_call_of_write (r : Reg) {s : State} {m : Memory} (hret : s.pc + 2 ≤ 255)
    (hw : s.mem.write s.pushedSp.toNat (BitVec.ofNat 8 (s.pc + 2)) = some m) : exec (.call (operandOf r)) s =
    .next (((s.setSp s.pushedSp).setMem m).setPc ((s.setSp s.pushedSp).reg r).toNat) :=
  (exec_call_eq r hret).trans (withWrite_of_some hw _)

/-- A RET that reads a byte completes (R165). -/
theorem exec_ret_of_read {s : State} {v : Byte} (h : s.mem.read s.sp.toNat = some v) :
    exec .ret s = .next ((s.setSp s.poppedSp).setPc v.toNat) :=
  withRead_of_some h _

/-- A CALL that completes leaves the decremented SP, and at that address its return address, which fits a byte (R164;
D15). -/
theorem Completes.call_return {s t : State} {a : Byte} (h : Completes s (.call a) t) :
    t.sp = s.pushedSp ∧ s.pc + 2 ≤ 255 ∧
      s.mem.write s.pushedSp.toNat (BitVec.ofNat 8 (s.pc + 2)) = some t.mem := by
  cases h with
  | call _ r m _ hret hm => exact ⟨s.setReg_reg_same _ _, hret, hm⟩

/-! ## A target beyond memory -/

/-- The transfer stores its target unchecked, and the fetch from there is beyond memory (R160, R183). -/
theorem faultsAtTheFetchOf_of_exec {i : Instr} {s u : State} {target : Nat} (h : exec i s = .next (u.setPc target))
    (hrun : u.status = .running) (hbeyond : u.mem.size ≤ target) : FaultsAtTheFetchOf target i s :=
  ⟨_, h, hrun, rfl, (step_of_running (s := u.setPc target) hrun).trans (withFetched_of_ge hbeyond _)⟩

end Sys2Proof.Machine

namespace Sys2Proof.Claims

open Sys2Proof.Machine

/-- Settles O38: the body leaves SP and the byte at SP as the CALL left them, and the RET goes to that byte, which is the
whole return address. -/
theorem returnGoesBackBehindTheMatchingCall : Obligations.ReturnGoesBackBehindTheMatchingCall := by
  intro d a body s t hwf hd hb h
  obtain ⟨u, v, w, hcall, hbody, hret, rfl⟩ := executes_bracket h
  obtain ⟨husp, hfits, hstore⟩ := hcall.call_return
  obtain ⟨htsp, back, hload, hpc⟩ := hret.ret_sp_pc
  have kept := stackKept_of_balanced hb hbody
  refine ⟨?_, (StackKept.bracket husp hstore kept htsp (hret.read_eq rfl)).1⟩
  have loaded_is_stored : some back = some (BitVec.ofNat 8 (s.pc + 2)) :=
    calc some back
      _ = v.mem.read v.sp.toNat := hload.symm
      _ = u.mem.read u.sp.toNat := kept.read_sp hd
      _ = u.mem.read s.pushedSp.toNat := by rw [husp]
      _ = some (BitVec.ofNat 8 (s.pc + 2)) := Memory.read_write_same hwf hstore
  rw [hpc, Option.some.inj loaded_is_stored]
  exact (BitVec.toNat_ofNat ..).trans (Nat.mod_eq_of_lt (by omega))

/-- Settles O30: past the register check nothing can fail. -/
theorem jmpSetsThePc : Obligations.JmpSetsThePc :=
  ⟨fun _ => rfl, fun _ s ha => withReg_of_ge ha s _, exec_jmp_eq⟩

/-- Settles O31: the register check comes before E is looked at, and a Compare leaves E set exactly for equal values. -/
theorem jeqJumpsExactlyWhenEqual : Obligations.JeqJumpsExactlyWhenEqual :=
  ⟨fun _ => rfl, fun _ s ha => withReg_of_ge ha s _, exec_jeq_eq,
    fun ra rb r s => ⟨_, _, exec_cmp_eq ra rb s, exec_jeq_eq r _, if_congr (compareFlags_E _ _) rfl rfl⟩⟩

/-- Settles O32: as for JEQ, with the two ways of the branch exchanged. -/
theorem jneJumpsExactlyWhenNotEqual : Obligations.JneJumpsExactlyWhenNotEqual := by
  refine ⟨fun _ => rfl, fun _ s ha => withReg_of_ge ha s _, fun r s => ?_,
    fun ra rb r s => ⟨_, _, exec_cmp_eq ra rb s, exec_jne_eq r _, ?_⟩⟩
  · rw [exec_jne_eq]
    cases s.fl.E <;> rfl
  · exact (if_congr (compareFlags_E _ _) rfl rfl).trans (ite_not ..).symm

/-- Settles O33: the checks are the register, the return address and the write at the decremented SP, in that order. -/
theorem callPushesTheReturnAddressAndJumps : Obligations.CallPushesTheReturnAddressAndJumps := by
  refine ⟨fun _ => rfl, fun _ s ha => withReg_of_ge ha s _, fun r _ hret => exec_call_of_gt r hret,
    fun r s hret hsp => (exec_call_eq r hret).trans (withWrite_of_ge hsp _ _), fun r s hwf hret hsp => ?_⟩
  have hw := Memory.write_of_lt (BitVec.ofNat 8 (s.pc + 2)) hsp
  refine ⟨_, exec_call_of_write r hret hw, storedOnly_of_write hwf hw, ?_⟩
  rw [setSp_pushedSp_reg]
  rfl

/-- Settles O34: the one access is the read at SP. -/
theorem retPopsThePc : Obligations.RetPopsThePc := by
  refine ⟨rfl, fun s hsp => withRead_of_ge hsp _, fun v s hv => ?_⟩
  rw [exec_ret_of_read hv, poppedSp_eq_ofNat]
  rfl

/-- Settles O35: each transfer leaves its target in pc, the run status RUNNING and the length of memory as it was. -/
theorem targetBeyondMemoryFaultsAtTheNextFetch : Obligations.TargetBeyondMemoryFaultsAtTheNextFetch := by
  intro s hrun
  refine ⟨fun r hr => ⟨?_, fun hE => ?_, fun hE => ?_⟩, fun r hr hret hsp => ?_, fun v hv hbeyond => ?_⟩
  · exact faultsAtTheFetchOf_of_exec (exec_jmp_eq r s) hrun hr
  · have taken := exec_jeq_eq r s
    rw [hE] at taken
    exact faultsAtTheFetchOf_of_exec taken hrun hr
  · have taken := exec_jne_eq r s
    rw [hE] at taken
    exact faultsAtTheFetchOf_of_exec taken hrun hr
  · rw [← setSp_pushedSp_reg] at hr ⊢
    exact faultsAtTheFetchOf_of_exec (exec_call_of_write r hret (Memory.write_of_lt _ hsp)) hrun hr
  · exact faultsAtTheFetchOf_of_exec (exec_ret_of_read hv) hrun hbeyond

end Sys2Proof.Claims
end

section
/-! SUPPORT. O9, O10, O11, O12: the fault that a result reports, operation by operation, and with it the order of R185
for every meaning and for a whole cycle. -/

namespace Sys2Proof

/-- The bytes that are an instruction and those that are none are all 256 (R65, R181). -/
theorem opcodeMap_length_add_countP_isNone :
    opcodeMap.length + ((List.range 256).countP fun n => (decodeOpcode (BitVec.ofNat 8 n)).isNone) = 256 := by
  have split_bytes := List.length_eq_countP_add_countP (l := List.range 256)
    fun n => (decodeOpcode (BitVec.ofNat 8 n)).isSome
  rw [countP_decodeOpcode_isSome, List.length_range] at split_bytes
  simp only [Bool.not_eq_true, Option.isSome_eq_false_iff, Bool.decide_eq_true] at split_bytes
  exact split_bytes.symm

end Sys2Proof

namespace Sys2Proof.Machine

open Sys2Proof.Claims

/-! ## Reporting a fault -/

/-- The first of an instruction's faults: that of its first register operand above 7, or else that of its own checks
(items 6 and 7 of R185). -/
def operandFault (operands : List Byte) (own : Option (FaultKind × Nat)) : Option (FaultKind × Nat) :=
  match operands.find? fun v => decide (7 < v.toNat) with
  | some v => some (.invalidRegister, v.toNat)
  | none => own

theorem operandFault_cons_of_gt {v : Byte} (h : 7 < v.toNat) (rest : List Byte) (own : Option (FaultKind × Nat)) :
    operandFault (v :: rest) own = some (.invalidRegister, v.toNat) := by
  simp [operandFault, h]

theorem operandFault_cons_of_le {v : Byte} (h : v.toNat ≤ 7) (rest : List Byte) (own : Option (FaultKind × Nat)) :
    operandFault (v :: rest) own = operandFault rest own := by
  simp [operandFault, Nat.not_lt.mpr h]

/-- Well-formed operands leave the instruction's own checks (R86). -/
theorem operandFault_of_wellFormed {i : Instr} (h : i.wellFormed = true) (own : Option (FaultKind × Nat)) :
    operandFault i.registerOperands own = own := by
  have none_bad : (i.registerOperands.find? fun v => decide (7 < v.toNat)) = none := by
    refine List.find?_eq_none.2 fun v hv hbad => ?_
    have hvalid : v.toNat < 8 := of_decide_eq_true (List.all_eq_true.1 h v hv)
    exact absurd (of_decide_eq_true hbad) (by omega)
  rw [operandFault, none_bad]

/-- A result in `s` reports this fault and changes nothing else, or, where there is none to report, does not fault. -/
def Reports (s : State) (fault : Option (FaultKind × Nat)) (r : Result) : Prop :=
  match fault with
  | some (kind, info) => r = .next (faultedAs s kind info)
  | none => ∃ t, r = .next t ∧ (NotFaulted s → NotFaulted t)

/-! ## The shared operations -/

section
variable {s : State} {own : Option (FaultKind × Nat)}

theorem reports_finish {len : Nat} {u : PcUpdate} {t : State} (h : NotFaulted s → NotFaulted t) :
    Reports s none (finish len u t) :=
  ⟨_, rfl, h⟩

/-- The next register operand is checked before whatever follows (R86). -/
theorem reports_withReg {v : Byte} {rest : List Byte} {k : Reg → Result}
    (hk : ∀ r, Reports s (operandFault rest own) (k r)) :
    Reports s (operandFault (v :: rest) own) (withReg v s k) := by
  obtain ⟨r, rfl, e⟩ | ⟨hv, e⟩ := withReg_cases v s k
  · rw [operandFault_cons_of_le (Nat.le_of_lt_succ (operandOf_lt r)), e]
    exact hk r
  · rw [operandFault_cons_of_gt hv]
    exact e

theorem reports_withRead {a : Nat} {k : Byte → Result} (hk : ∀ v, Reports s own (k v)) :
    Reports s (if s.mem.size ≤ a then some (.outOfBounds, a) else own) (withRead a s k) := by
  obtain ⟨v, -, ha, e⟩ | ⟨ha, e⟩ := withRead_cases a s k
  · rw [if_neg (by omega), e]
    exact hk v
  · rw [if_pos ha]
    exact e

theorem reports_withWrite {a : Nat} {v : Byte} {k : Memory → Result} (hk : ∀ m, Reports s own (k m)) :
    Reports s (if s.mem.size ≤ a then some (.outOfBounds, a) else own) (withWrite a v s k) := by
  obtain ⟨m, -, ha, e⟩ | ⟨ha, e⟩ := withWrite_cases a v s k
  · rw [if_neg (by omega), e]
    exact hk m
  · rw [if_pos ha]
    exact e

/-- The bound on CALL's return address (R164; D15). -/
theorem reports_returnAddress {r : Result} (h : Reports s own r) :
    Reports s (if 255 < s.pc + 2 then some (.outOfBounds, s.pc + 2) else own)
      (if s.returnAddress ≤ 255 then r else raise .outOfBounds s.returnAddress s) := by
  by_cases hret : s.pc + 2 ≤ 255
  · rw [if_neg (by omega), State.returnAddress, if_pos hret]
    exact h
  · rw [if_pos (by omega), State.returnAddress, if_neg hret]
    rfl

end

/-! ## The meanings -/

theorem reports_execArith (f : Byte → Byte → Byte) (a b : Byte) (s : State) :
    Reports s (operandFault [a, b] none) (execArith f a b s) :=
  reports_withReg fun _ => reports_withReg fun _ => reports_finish id

/-- Each meaning reports the first fault of its operands and its own checks (items 6 and 7 of R185). -/
theorem reports_exec (i : Instr) (s : State) :
    Reports s (operandFault i.registerOperands (ownFault s i)) (exec i s) := by
  cases i with
  | hlt => exact reports_finish fun _ _ e => nomatch e
  | ret => exact reports_withRead fun _ => reports_finish id
  | push a => exact reports_withReg fun _ => reports_withWrite fun _ => reports_finish id
  | pop a => exact reports_withReg fun _ => reports_withRead fun _ => reports_finish id
  | prn a => exact reports_withReg fun _ => reports_finish id
  | call a =>
    exact reports_withReg fun _ => reports_returnAddress (reports_withWrite fun _ => reports_finish id)
  | jmp a => exact reports_withReg fun _ => reports_finish id
  | jeq a => exact reports_withReg fun _ => reports_finish id
  | jne a => exact reports_withReg fun _ => reports_finish id
  | ldi a imm => exact reports_withReg fun _ => reports_finish id
  | add a b => exact reports_execArith aluAdd a b s
  | sub a b => exact reports_execArith aluSub a b s
  | mul a b => exact reports_execArith aluMul a b s
  | cmp a b => exact reports_withReg fun _ => reports_withReg fun _ => reports_finish id

theorem exec_eq_of_operandFault {i : Instr} {s : State} {kind : FaultKind} {info : Nat}
    (h : operandFault i.registerOperands (ownFault s i) = some (kind, info)) :
    exec i s = .next (faultedAs s kind info) := by
  have reported := reports_exec i s
  rwa [h] at reported

/-- A fault that one check on an address gives is OutOfBounds, if those of the checks behind it are. -/
theorem kind_of_bound {p : Prop} [Decidable p] {addr info : Nat} {own : Option (FaultKind × Nat)} {kind : FaultKind}
    (h : (if p then some (.outOfBounds, addr) else own) = some (kind, info))
    (hown : own = some (kind, info) → kind = .outOfBounds) : kind = .outOfBounds := by
  split at h
  · cases h
    rfl
  · exact hown h

/-- An instruction's own checks are all on addresses (R183). -/
theorem ownFault_kind {i : Instr} {s : State} {kind : FaultKind} {info : Nat}
    (h : ownFault s i = some (kind, info)) : kind = .outOfBounds := by
  cases i with
  | ret => exact kind_of_bound h nofun
  | push a => exact kind_of_bound h nofun
  | pop a => exact kind_of_bound h nofun
  | call a => exact kind_of_bound h fun h => kind_of_bound h nofun
  | _ => cases h

/-! ## The cycle -/

theorem read_eq_some_byteAt {s : State} {a : Nat} (h : a < s.mem.size) : s.mem.read a = some (byteAt s a) := by
  simp [byteAt, Memory.read_of_lt h]

/-- A cycle reports the first fault in the order of R185: the fetch, the operand bytes, the lookup, the meaning. -/
theorem reports_cycle (s : State) : Reports s (expectedFault s) (cycle exec s) := by
  unfold expectedFault
  by_cases hpc : s.mem.size ≤ s.pc
  · rw [if_pos hpc]
    exact withFetched_of_ge hpc _
  have h0 := read_eq_some_byteAt (Nat.not_le.1 hpc)
  rw [if_neg hpc]
  by_cases h1 : 1 ≤ operandCount (byteAt s s.pc) ∧ s.mem.size ≤ s.pc + 1
  · rw [if_pos h1]
    exact withFetched_missing1 h0 h1.1 h1.2 _
  rw [if_neg h1]
  by_cases h2 : 2 ≤ operandCount (byteAt s s.pc) ∧ s.mem.size ≤ s.pc + 2
  · rw [if_pos h2]
    exact withFetched_missing2 h0 h2.1 (read_eq_some_byteAt (by omega)) h2.2 _
  rw [if_neg h2, cycle_of_bytes exec h0 (fun _ => read_eq_some_byteAt (by omega))
    (fun _ => read_eq_some_byteAt (by omega))]
  cases decodeOpcode (byteAt s s.pc) with
  | none => rfl
  | some o => exact reports_exec _ s

end Sys2Proof.Machine

namespace Sys2Proof.Claims

open Sys2Proof.Machine

/-- Settles O9: the bytes that are no instruction are those that the count of O2 leaves, and the lookup of one in memory
raises in the state from before. -/
theorem unknownInstructionIsFatal : Obligations.UnknownInstructionIsFatal := by
  refine ⟨Nat.add_left_cancel opcodeMap_length_add_countP_isNone, rfl,
    fun s op hs h0 ho h1 h2 => ⟨?_, step_of_faulted rfl⟩⟩
  have hstep := fetchesFrom_mem hs op _ _ h0 (fun hc => Memory.read_of_lt (h1 hc))
    (fun hc => Memory.read_of_lt (h2 hc))
  rwa [ho] at hstep

/-- Settles O10: `reports_exec`, at operand lists with a byte above 7 and at well-formed ones, where only the own checks
remain. -/
theorem invalidRegisterIsRaised : Obligations.InvalidRegisterIsRaised := by
  refine ⟨fun a b s ha i hi => ?_, fun a b s i hi => ?_, fun i s t r hi hs ht hr => ?_⟩
  · have one_operand : ∀ i ∈ [Instr.ldi a b, .prn a, .push a, .pop a, .jmp a, .jeq a, .jne a, .call a],
        i.registerOperands = [a] := by
      simp [Instr.registerOperands]
    exact exec_eq_of_operandFault (one_operand i hi ▸ operandFault_cons_of_gt ha _ _)
  · have two_operands : ∀ i ∈ [Instr.add a b, .sub a b, .mul a b, .cmp a b], i.registerOperands = [a, b] := by
      simp [Instr.registerOperands]
    have raised : ∀ {v : Byte}, operandFault [a, b] (ownFault s i) = some (.invalidRegister, v.toNat) →
        exec i s = .next (faultedAs s .invalidRegister v.toNat) :=
      fun h => exec_eq_of_operandFault (two_operands i hi ▸ h)
    refine ⟨fun ha _ => raised (operandFault_cons_of_gt ha _ _), fun ha hb => raised ?_,
      fun ha _ => ⟨a, .inl rfl, raised (operandFault_cons_of_gt ha _ _)⟩⟩
    rw [operandFault_cons_of_le ha, operandFault_cons_of_gt hb]
  · have reported := reports_exec i s
    rw [operandFault_of_wellFormed hi, ht] at reported
    cases hown : ownFault s i with
    | none =>
      rw [hown] at reported
      obtain ⟨u, hu, hnot⟩ := reported
      exact absurd (Host.Outcome.next.inj hu ▸ hr) (hnot (notFaulted_of_running hs) r)
    | some fault =>
      obtain ⟨kind, info⟩ := fault
      rw [hown] at reported
      obtain rfl := Host.Outcome.next.inj reported
      obtain rfl := RunStatus.faulted.inj hr
      rw [ownFault_kind hown]
      exact nofun

/-- Settles O11: `reports_cycle`, from a state that is not FAULTED. -/
theorem cycleReportsTheFirstFaultInOrder : Obligations.CycleReportsTheFirstFaultInOrder := by
  intro s hs
  have reported := reports_cycle s
  rw [← step_of_running hs] at reported
  cases hf : expectedFault s with
  | none =>
    rw [hf] at reported
    obtain ⟨t, ht, hnot⟩ := reported
    exact ⟨t, ht, hnot (notFaulted_of_running hs)⟩
  | some fault =>
    obtain ⟨kind, info⟩ := fault
    rwa [hf] at reported

/-- Settles O12: a completed instruction leaves RUNNING or HALTED, so the step took a fault. -/
theorem faultsArePrecise : Obligations.FaultsArePrecise := by
  intro s t r h hr
  obtain ⟨hrun, ⟨i, -, hc⟩ | ⟨kind, info, -, rfl⟩⟩ := step_cases h
  · obtain e | e := hc.status_cases
    · exact nomatch hr.symm.trans (e.trans hrun)
    · exact nomatch hr.symm.trans e
  · obtain rfl := RunStatus.faulted.inj hr
    exact ⟨rfl, rfl, rfl⟩

end Sys2Proof.Claims
end

section
/-! SUPPORT. O54, O56, O57, O58: the token of a line, the files that are refused, and the host's ports after the end of
a run. -/

namespace Sys2Proof.Machine

open Sys2Proof.Claims

/-! ## The token of a line -/

/-- The comment is all that is stripped: white space and token hold no `#` (R204). -/
theorem stripComment_eq {text comment : List Char} (htext : '#' ∉ text)
    (hcomment : comment = [] ∨ comment.head? = some '#') : stripComment (text ++ comment) = text := by
  have none_hash : ∀ c ∈ text, decide (c ≠ '#') = true := fun c hc => decide_eq_true fun e => htext (e ▸ hc)
  have stops : comment.takeWhile (fun c => decide (c ≠ '#')) = [] := by
    cases comment with
    | nil => rfl
    | cons c rest => simpa using hcomment
  rw [stripComment, List.takeWhile_append_of_pos none_hash, stops, List.append_nil]

theorem hash_not_mem_of_white {text : List Char} (h : White text) : '#' ∉ text :=
  fun hc => absurd (h _ hc) (by decide)

/-- White space in front of a text that begins with none is all that is dropped. -/
theorem dropWhile_white_append {before text : List Char} (hbefore : White before)
    (htext : ∃ c, text.head? = some c ∧ c.isWhitespace = false) :
    (before ++ text).dropWhile Char.isWhitespace = text := by
  obtain ⟨c, hhead, hc⟩ := htext
  obtain ⟨rest, rfl⟩ := List.head?_eq_some_iff.1 hhead
  rw [List.dropWhile_append_of_pos hbefore, List.dropWhile_cons_of_neg (by simp [hc])]

/-- The token that a line holds is the one the Loader reads from it (R203, R204). -/
theorem lineToken_eq {token line : List Char} (hline : LineHolds token line) (htoken : IsToken token) :
    lineToken line = token := by
  obtain ⟨before, after, comment, hbefore, hafter, hcomment, rfl⟩ := hline
  obtain ⟨hhash, ⟨c, hhead, hc⟩, ⟨d, hlast, hd⟩⟩ := htoken
  have strip : stripComment (before ++ token ++ after ++ comment) = before ++ (token ++ after) := by
    rw [stripComment_eq ?_ hcomment, List.append_assoc]
    simp [hash_not_mem_of_white hbefore, hash_not_mem_of_white hafter, hhash]
  have front : (before ++ (token ++ after)).dropWhile Char.isWhitespace = token ++ after :=
    dropWhile_white_append hbefore ⟨c, by simp [hhead], hc⟩
  have back : (token ++ after).reverse.dropWhile Char.isWhitespace = token.reverse := by
    rw [List.reverse_append]
    exact dropWhile_white_append (fun x hx => hafter x (List.mem_reverse.1 hx)) ⟨d, by simp [hlast], hd⟩
  rw [lineToken, strip, front, back, List.reverse_reverse]

theorem ne_nil_of_isToken {token : List Char} (h : IsToken token) : token ≠ [] := by
  rintro rfl
  obtain ⟨-, ⟨c, hhead, -⟩, -⟩ := h
  cases hhead

/-! ## Which files are refused -/

theorem binaryValue_digits {acc n : Nat} {token : List Char} (h : binaryValue acc token = some n) :
    ∀ c ∈ token, c = '0' ∨ c = '1' := by
  induction token generalizing acc with
  | nil => exact nofun
  | cons d rest ih =>
    rw [binaryValue] at h
    by_cases h0 : d = '0'
    · rw [if_pos h0] at h
      exact List.forall_mem_cons.2 ⟨.inl h0, ih h⟩
    · rw [if_neg h0] at h
      by_cases h1 : d = '1'
      · rw [if_pos h1] at h
        exact List.forall_mem_cons.2 ⟨.inr h1, ih h⟩
      · rw [if_neg h1] at h
        cases h

/-- A token that is read is eight binary digits (R205). -/
theorem parseToken_ok {token : List Char} {v : Byte} (h : parseToken token = .ok v) :
    token.length = 8 ∧ ∀ c ∈ token, c = '0' ∨ c = '1' := by
  unfold parseToken at h
  split at h
  · next hlen =>
    split at h
    · next hn => exact ⟨hlen, binaryValue_digits hn⟩
    · cases h
  · cases h

/-- A file is refused as malformed, or its image goes to the load (R203, R205). -/
theorem boot_cases (n : Nat) (lines : List (List Char)) :
    boot n (some lines) = .error .malformedToken ∨
    ∃ img, parseLines lines = .ok img ∧ boot n (some lines) = (State.resetOfSize n).hostLoad img := by
  rw [boot_some]
  cases h : parseLines lines with
  | error e =>
    obtain rfl := parseLines_error h
    exact .inl rfl
  | ok img => exact .inr ⟨img, rfl, rfl⟩

theorem hostLoad_of_long {n : Nat} {img : List Byte} (h : n < img.length) :
    (State.resetOfSize n).hostLoad img = .error .imageTooLong := by
  rw [State.hostLoad_resetOfSize, if_neg (Nat.not_le.2 h)]

/-- One malformed line makes the file malformed (R205). -/
theorem boot_of_malformed {lines : List (List Char)} {line token : List Char} (hmem : line ∈ lines)
    (hline : LineHolds token line) (htoken : IsToken token)
    (hbad : token.length ≠ 8 ∨ ∃ c ∈ token, c ≠ '0' ∧ c ≠ '1') (n : Nat) :
    boot n (some lines) = .error .malformedToken := by
  refine (boot_cases n lines).resolve_right fun ⟨img, himg, _⟩ => ?_
  have hread := lineToken_eq hline htoken
  obtain ⟨v, hv⟩ := (parseLines_ok himg).2 line hmem (hread ▸ ne_nil_of_isToken htoken)
  obtain ⟨hlen, hdigits⟩ := parseToken_ok (hread ▸ hv)
  obtain hne | ⟨c, hc, hc0, hc1⟩ := hbad
  · exact hne hlen
  · exact (hdigits c hc).elim hc0 hc1

/-- The image of a file that is read has a byte for each line that holds a token (R203). -/
theorem length_le_of_parseLines {lines kept : List (List Char)} {img : List Byte} (h : parseLines lines = .ok img)
    (hsub : kept.Sublist lines) (hkept : ∀ line ∈ kept, ∃ token, LineHolds token line ∧ IsToken token) :
    kept.length ≤ img.length := by
  have all_retained : ∀ line ∈ kept, decide (lineToken line ≠ []) = true := fun line hl => by
    obtain ⟨token, hline, htoken⟩ := hkept line hl
    exact decide_eq_true (lineToken_eq hline htoken ▸ ne_nil_of_isToken htoken)
  rw [(parseLines_ok h).1, ← List.countP_eq_length.2 all_retained]
  exact hsub.countP_le

/-! ## The ports after the end of a run -/

theorem State.hostReset_of_ended {s : State} (h : s.status.ended = true) :
    s.hostReset = some (State.resetOfSize s.mem.size) :=
  if_pos h

theorem toNat_ofNat9 {n : Nat} (h : n ≤ 256) : (BitVec.ofNat 9 n).toNat = n := by
  rw [BitVec.toNat_ofNat]
  omega

/-- The byte `0b00000LGE` (R193). -/
theorem Flags.toByte_bits (f : Flags) : f.toByte.getLsbD 2 = f.L ∧ f.toByte.getLsbD 1 = f.G ∧
    f.toByte.getLsbD 0 = f.E ∧ f.toByte.toNat < 8 := by
  obtain ⟨L, G, E⟩ := f
  revert L G E
  decide

/-- The fault record under the invariant fits the port's nine bits (R32, R193). -/
theorem State.Inv.record_le {s : State} {r : FaultRecord} (h : s.Inv) (hr : s.status = .faulted r) :
    r.fpc ≤ 256 ∧ r.info ≤ 256 := by
  obtain ⟨-, hpc, -, hrec⟩ := h
  simp only [hr, RunStatus.recordOk, Bool.and_eq_true, decide_eq_true_eq] at hrec
  omega

/-- The fault that a status code stands for (R193). -/
def faultOfCode : Nat → Option FaultKind
  | 2 => some .unknownInstruction
  | 3 => some .invalidRegister
  | 4 => some .outOfBounds
  | _ => none

theorem faultOfCode_code (r : FaultRecord) : faultOfCode (RunStatus.faulted r).code = some r.kind := by
  obtain ⟨kind, fpc, info⟩ := r
  cases kind <;> rfl

end Sys2Proof.Machine

namespace Sys2Proof.Claims

open Sys2Proof.Machine

/-- Settles O54: a file that is read has well-formed tokens only and a byte for each of them, so a bad line makes it
malformed, and too many lines make its image too long. -/
theorem badLoadsAreRefused : Obligations.BadLoadsAreRefused := by
  refine ⟨fun _ => rfl, fun _ _ => hostLoad_of_long, fun n lines line token hmem hline htoken hbad => ?_,
    fun n lines kept hsub hkept hlong => ?_⟩
  · have refused := boot_of_malformed hmem hline htoken hbad n
    exact ⟨.inl refused, fun _ => refused⟩
  · obtain e | ⟨img, himg, e⟩ := boot_cases n lines
    · exact .inl e
    · exact .inr (e.trans (hostLoad_of_long (hlong.trans_le (length_le_of_parseLines himg hsub hkept))))

/-- Settles O56: the guard of the reset is the end of the run. -/
theorem hostResetsOnlyAfterTheEnd : Obligations.HostResetsOnlyAfterTheEnd :=
  fun _ => ⟨State.hostReset_of_running, fun h => State.hostReset_of_ended (h ▸ rfl),
    fun _ h => State.hostReset_of_ended (h ▸ rfl)⟩

/-- Settles O57: the port's fields are those of the state, and under the invariant nothing is lost in nine bits. -/
theorem statusPortShowsTheFinalState : Obligations.StatusPortShowsTheFinalState := by
  refine ⟨fun _ => State.statusPort_of_running, fun s hs => ?_, fun s r hinv hr => ?_, fun s p hinv hp => ?_⟩
  · obtain ⟨regs, pc, fl, mem, out, status⟩ := s
    obtain rfl : status = .halted := hs
    exact ⟨_, rfl, rfl, rfl, rfl⟩
  · obtain ⟨hfpc, hinfo⟩ := hinv.record_le hr
    obtain ⟨regs, pc, fl, mem, out, status⟩ := s
    obtain rfl : status = .faulted r := hr
    exact ⟨_, _, _, rfl, rfl, rfl, toNat_ofNat9 hfpc, rfl, toNat_ofNat9 hinfo⟩
  · unfold State.statusPort at hp
    split at hp
    · obtain rfl := Option.some.inj hp
      exact ⟨rfl, toNat_ofNat9 hinv.pc_le, rfl, s.fl.toByte_bits⟩
    · cases hp

/-- Settles O58: every other code is a successor, and each fault is read back from its status code. -/
theorem exitCodeIsZeroExactlyOnHalt : Obligations.ExitCodeIsZeroExactlyOnHalt := by
  refine ⟨rfl, fun _ => ⟨_, rfl, Nat.succ_ne_zero _⟩, Nat.succ_ne_zero _, fun r r' hkind hcode => hkind ?_⟩
  have same := congrArg faultOfCode hcode
  rw [faultOfCode_code, faultOfCode_code] at same
  exact Option.some.inj same

end Sys2Proof.Claims
end

section
/-! SUPPORT. O53, O55: memory after the host load, and the Loader's reading of a line and of a file. -/

namespace Sys2Proof.Machine

open Sys2Proof.Claims

/-! ## The load that is accepted -/

/-- An image that fits is placed into memory, and no other field is written (R202). -/
theorem hostLoad_of_fits {n : Nat} {img : List Byte} (h : img.length ≤ n) :
    (State.resetOfSize n).hostLoad img =
      .ok { State.resetOfSize n with mem := (State.resetOfSize n).mem.place 0 img } := by
  rw [State.hostLoad_resetOfSize, if_pos h]

/-- The byte 0x00 is no instruction, so a RUNNING cycle that fetches it raises (R85, R202). -/
theorem step_of_zero_byte {s : State} (hs : s.status = .running) (h0 : s.mem.read s.pc = some 0x00) :
    step s = .next (faultedAs s .unknownInstruction 0x00) :=
  fetchesFrom_mem hs 0x00 0 0 h0 (fun h => absurd h (by decide)) (fun h => absurd h (by decide))

/-! ## The digits of a byte -/

/-- The low `k` bits of a byte as binary digits, the highest first. -/
def lowDigits (v : Byte) : Nat → List Char
  | 0 => []
  | k + 1 => (if v.getLsbD k then '1' else '0') :: lowDigits v k

theorem lowDigits_eight (v : Byte) : lowDigits v 8 = binaryLine v := rfl

theorem lowDigits_length (v : Byte) (k : Nat) : (lowDigits v k).length = k := by
  induction k with
  | zero => rfl
  | succ k ih => rw [lowDigits, List.length_cons, ih]

/-- A digit in front of the rest doubles what was read before it, and adds itself. -/
theorem binaryValue_cons (acc : Nat) (b : Bool) (rest : List Char) :
    binaryValue acc ((if b then '1' else '0') :: rest) = binaryValue (2 * acc + b.toNat) rest := by
  cases b <;> rfl

/-- Reading the low digits shifts what was read before them and adds the value of the low bits. -/
theorem binaryValue_lowDigits (v : Byte) (k acc : Nat) :
    binaryValue acc (lowDigits v k) = some (2 ^ k * acc + v.toNat % 2 ^ k) := by
  induction k generalizing acc with
  | zero => simp [lowDigits, binaryValue, Nat.mod_one]
  | succ k ih =>
    have high_bit : v.toNat % 2 ^ (k + 1) = v.toNat % 2 ^ k + 2 ^ k * (v.getLsbD k).toNat := by
      rw [Nat.mod_pow_succ, ← Nat.toNat_testBit, BitVec.testBit_toNat]
    rw [lowDigits, binaryValue_cons, ih, high_bit]
    congr 1
    ring

/-- The Loader reads a byte's eight digits as that byte (R204). -/
theorem parseToken_binaryLine (v : Byte) : parseToken (binaryLine v) = .ok v := by
  have value : binaryValue 0 (lowDigits v 8) = some v.toNat := by
    rw [binaryValue_lowDigits, Nat.mul_zero, Nat.zero_add, Nat.mod_eq_of_lt v.isLt]
  rw [← lowDigits_eight, parseToken, if_pos (lowDigits_length v 8), value]
  simp

/-- A token that is read is one that a retained line can hold: its digits are neither `#` nor white space. -/
theorem isToken_of_parseToken {token : List Char} {v : Byte} (h : parseToken token = .ok v) : IsToken token := by
  obtain ⟨hlen, hdigits⟩ := parseToken_ok h
  have not_white : ∀ c ∈ token, c.isWhitespace = false := fun c hc => by
    obtain rfl | rfl := hdigits c hc <;> decide
  have hne : token ≠ [] := List.ne_nil_of_length_pos (by omega)
  exact ⟨fun hc => (hdigits _ hc).elim (by decide) (by decide),
    ⟨_, List.head?_eq_some_head hne, not_white _ (List.head_mem hne)⟩,
    ⟨_, List.getLast?_eq_some_getLast hne, not_white _ (List.getLast_mem hne)⟩⟩

/-! ## The Loader, line by line -/

/-- A blank or comment-only line leaves no token (R204). -/
theorem lineToken_of_blank {line : List Char} (h : LineHolds [] line) : lineToken line = [] := by
  obtain ⟨before, after, comment, hbefore, hafter, hcomment, rfl⟩ := h
  rw [List.append_nil]
  have white : White (before ++ after) := List.forall_mem_append.2 ⟨hbefore, hafter⟩
  have none_left : (before ++ after).dropWhile Char.isWhitespace = [] := List.dropWhile_eq_nil_iff.2 white
  rw [lineToken, stripComment_eq (hash_not_mem_of_white white) hcomment, none_left]
  rfl

theorem parseLines_blank {line : List Char} (h : LineHolds [] line) (rest : List (List Char)) :
    parseLines (line :: rest) = parseLines rest :=
  parseLines_skip (lineToken_of_blank h) rest

/-- A line with eight digits gives its byte, in front of what the rest gives or refuses (R203, R204). -/
theorem parseLines_binaryLine {v : Byte} {line : List Char} (h : LineHolds (binaryLine v) line)
    (rest : List (List Char)) :
    parseLines (line :: rest) = (parseLines rest).map fun img => v :: img := by
  have htoken := isToken_of_parseToken (parseToken_binaryLine v)
  have hread := lineToken_eq h htoken
  rw [parseLines_retained (hread ▸ ne_nil_of_isToken htoken), hread, parseToken_binaryLine]
  rfl

/-- A file whose lines each hold a byte or nothing gives the bytes, in order (R203). -/
theorem parseLines_file {file : List (Option Byte × List Char)}
    (h : ∀ l ∈ file, LineHolds (l.1.elim [] binaryLine) l.2) :
    parseLines (file.map fun l => l.2) = .ok (file.filterMap fun l => l.1) := by
  induction file with
  | nil => rfl
  | cons l rest ih =>
    obtain ⟨hline, hrest⟩ := List.forall_mem_cons.1 h
    obtain ⟨_ | v, line⟩ := l
    · exact (parseLines_blank hline _).trans (ih hrest)
    · rw [List.map_cons, parseLines_binaryLine hline, ih hrest]
      rfl

end Sys2Proof.Machine

namespace Sys2Proof.Claims

open Sys2Proof.Machine

/-- Settles O53: the load changes memory alone, whose bytes are then the image and zeros; the zero that an empty image
leaves at address 0 is no instruction. -/
theorem hostLoadPlacesTheImage : Obligations.HostLoadPlacesTheImage := by
  refine ⟨fun n img h1 h2 hfits => ?_, fun n h1 h2 => ?_⟩
  · have hload := hostLoad_of_fits hfits
    obtain ⟨-, hsize, hread⟩ := read_of_hostLoad h1 h2 hload
    refine ⟨_, hload, fun i hi => ?_, fun i hi hin => ?_, rfl, hsize⟩
    · rw [hread i (hi.trans_le hfits), List.getD_eq_getElem _ _ hi]
    · rw [hread i hin, List.getD_eq_default _ _ hi]
  · have hload := hostLoad_of_fits (img := []) (Nat.zero_le n)
    obtain ⟨-, -, hread⟩ := read_of_hostLoad h1 h2 hload
    exact ⟨_, hload, step_of_zero_byte rfl (hread 0 h1), rfl⟩

/-- Settles O55: a line's token is what it holds, eight digits are read as their byte, and a file is read line by
line. -/
theorem loaderReadsOneBytePerLine : Obligations.LoaderReadsOneBytePerLine := by
  refine ⟨rfl, fun v line rest h => parseLines_binaryLine h rest, fun line rest h => parseLines_blank h rest,
    fun n file h => ⟨parseLines_file h, ?_⟩⟩
  rw [boot_some, parseLines_file h]
  rfl

end Sys2Proof.Claims
end
